-- ==== Sys2Proof/Word.lean ====
section
/-! DEFINITION. The widths of the core's values: `00_scope.md` R6 and R7. Every value is unsigned. -/

namespace Sys2Proof

/-- A buffer cell, TX_REG, RX_REG, SR or PIN (R6 "Byte width"). -/
abbrev Byte := BitVec 8

/-- LEN, RC, SC and BUF_MAX (R6 `LEN_W`), and an EV16 word (`30_encoding.md` R63). -/
abbrev Half := BitVec 16

/-- A host register and a CMD32 word (`10_state.md` R38, `30_encoding.md` R63). -/
abbrev Word := BitVec 32

/-- A label's word with the port it comes from (R63): the same bits on the two ports are two different labels. -/
inductive Label where
  | cmd (w : Word)
  | ev (e : Half)
  deriving DecidableEq, Repr

end Sys2Proof
end

