-- ==== Sys2Proof/Config.lean ====
section
/-! DEFINITION. The parameters of the machine (`00_scope.md` R6) and its free values (`93_implementation_defined.md` I3, I4, I5, I7,
I12): constants without a body, so no statement can rest on what they are. -/

namespace Sys2Proof

/-- Order in which the bits of a byte cross the wire (`20_memory.md` R49). -/
inductive BitOrder where
  | msbFirst
  | lsbFirst
  deriving DecidableEq, Repr

/-- The two open parameters of R6. They are arguments of the model: every statement holds for all of them. -/
structure Params where
  /-- BUF_MAX (R6, D5). Its width bounds it by 65535. -/
  bufMax : Half
  /-- BIT_ORDER (R6, D7). -/
  bitOrder : BitOrder
  /-- BUF_MAX is at least 1 (R6). -/
  bufMax_pos : 1#16 ≤ bufMax := by decide
  deriving DecidableEq, Repr

/-- What happens to a byte staged while another is shifting (`42_byte_clock.md` R111, I5). -/
inductive StageChoice where
  | take
  | drop
  deriving DecidableEq, Repr, Inhabited

namespace Config

/-- The parameters of `State.reset`: BUF_MAX 256 and MSB_FIRST, the values of the spec's test vectors (`95_test_vectors.md`).
DESIGN CHOICE (log 1, unsafe): the spec leaves both open. -/
def resetParams : Params where
  bufMax := 256#16
  bitOrder := .msbFirst

/-- The PIN value that means "no select pin" (R6 `PIN_SENTINEL`, D6). -/
def pinSentinel : Byte := 0xFF#8

/-- The select-line level that means "selected" (R6 `SEL_ACTIVE_LEVEL`). -/
def selActiveLevel : Bool := true

/-- `dl`: the byte sent when nothing was staged (R108, I3). Free (log 8, safe). -/
opaque freeStaleByte : Nat → Byte

/-- `dr`: the byte received when the previous one is still unhandled (R108, I4). Free (log 8, safe). -/
opaque freeOverrunByte : Nat → Byte

/-- `stg`: whether a late stage is taken or dropped (R111, I5). Free (log 8, safe). -/
opaque freeStage : Nat → StageChoice

/-- `P`: the producer's answer, cell by cell (`41_select_edge.md` R95, I12). Free (log 8, safe). -/
opaque freeProduced : Nat → Nat → Byte

/-- Which of two enabled dispatches the core takes first when the schedule names none (`60_exceptions.md` R132, I7): true for the
byte handler. Free (log 6, safe). -/
opaque freeByteFirst : Nat → Bool

end Config
end Sys2Proof
end

