-- ==== Sys2Proof/Syntax.lean ====
section
/-! DEFINITION. The nine labels of the machine as data (`30_encoding.md` R71). -/

namespace Sys2Proof

/-- One constructor per row of the opcode table. Operands are unsigned fields (R69). -/
inductive Instr where
  /-- CFG (`40_config.md` R80). `pin` is `none` for "no select pin", `some p` for the pin `p` (R78). -/
  | cfg (prd cns : Bool) (pin : Option Byte) (len : Half)
  /-- TEARDOWN (R81). -/
  | teardown
  /-- INJECT_EDGE (R82): `lvl` is the level the edge body samples. -/
  | injectEdge (lvl : Bool)
  /-- SS_LEVEL (`41_select_edge.md` R90): the bus master drives the select line to `v`. -/
  | ssLevel (v : Bool)
  /-- SCK_BIT (`42_byte_clock.md` R108): the bus master clocks one bit. -/
  | sckBit (mosi : Bool)
  /-- BYTE (R109): the bus master clocks one whole byte. -/
  | byte (m : Byte)
  /-- RD (`40_config.md` R83): the host reads register `idx`. -/
  | rd (idx : BitVec 4)
  /-- DISPATCH_EDGE (`41_select_edge.md` R91): the core runs the select-edge handler. -/
  | dispatchEdge
  /-- DISPATCH_BYTE (`42_byte_clock.md` R110): the core runs the byte clock handler. -/
  | dispatchByte
  deriving DecidableEq, Repr

end Sys2Proof
end

