-- ==== Sys2Proof/WellFormed.lean ====
section
/-! DEFINITION. Which terms of `Instr` are instructions. The field widths are in the types; the one check left is CFG's pin. -/

namespace Sys2Proof

/-- `pin=255` is only a synonym of `pin=none` (`30_encoding.md` R78), so `some 0xFF` is no pin of its own (log 13). -/
def Instr.wellFormed : Instr → Bool
  | .cfg _ _ pin _ => decide (pin ≠ some Config.pinSentinel)
  | .teardown => true
  | .injectEdge _ => true
  | .ssLevel _ => true
  | .sckBit _ => true
  | .byte _ => true
  | .rd _ => true
  | .dispatchEdge => true
  | .dispatchByte => true

end Sys2Proof
end

