-- ==== Sys2Proof/Decode.lean ====
section
/-! DEFINITION. Decoding of CMD32 and EV16 words (`30_encoding.md` R63-R77), total on every word, and the encoder written from the
same layouts. -/

namespace Sys2Proof

/-- What a label's word names: an instruction, an illegal command word (R73, still a step), or a reserved event word (R74, no step). -/
inductive Decoded where
  | instr (i : Instr)
  | illegalCmd
  | reservedEvent
  deriving DecidableEq, Repr

/-- The pin operand of a PIN field: `0xFF` is the sentinel for no pin (R65). -/
def pinOperand (p : Byte) : Option Byte :=
  if p = Config.pinSentinel then none else some p

/-- The PIN field of a pin operand. -/
def pinField : Option Byte → Byte
  | none => Config.pinSentinel
  | some p => p

/-- `decodeCmd` of R77: OP first, then the reserved bits of that opcode (R64-R67, R73). -/
def decodeCmd (w : Word) : Decoded :=
  let op := w.extractLsb' 28 4
  if op = 0x1#4 then
    if w.extractLsb' 24 2 = 0#2 then
      .instr (.cfg (w.getLsbD 27) (w.getLsbD 26) (pinOperand (w.extractLsb' 16 8)) (w.extractLsb' 0 16))
    else .illegalCmd
  else if op = 0x2#4 then
    if w.extractLsb' 0 28 = 0#28 then .instr .teardown else .illegalCmd
  else if op = 0x3#4 then
    if w.extractLsb' 1 27 = 0#27 then .instr (.injectEdge (w.getLsbD 0)) else .illegalCmd
  else .illegalCmd

/-- `decodeEv` of R77: KIND first, then the reserved bits of that kind (R68, R74). -/
def decodeEv (e : Half) : Decoded :=
  let kind := e.extractLsb' 12 4
  if kind = 0x1#4 then
    if e.extractLsb' 1 11 = 0#11 then .instr (.ssLevel (e.getLsbD 0)) else .reservedEvent
  else if kind = 0x2#4 then
    if e.extractLsb' 1 11 = 0#11 then .instr (.sckBit (e.getLsbD 0)) else .reservedEvent
  else if kind = 0x3#4 then
    if e.extractLsb' 8 4 = 0#4 then .instr (.byte (e.extractLsb' 0 8)) else .reservedEvent
  else if kind = 0x4#4 then
    if e.extractLsb' 4 8 = 0#8 then .instr (.rd (e.extractLsb' 0 4)) else .reservedEvent
  else if kind = 0x8#4 then
    if e.extractLsb' 0 12 = 0#12 then .instr .dispatchEdge else .reservedEvent
  else if kind = 0x9#4 then
    if e.extractLsb' 0 12 = 0#12 then .instr .dispatchByte else .reservedEvent
  else .reservedEvent

/-- The format is known from the port, never from the bits (R63, R76). -/
def decode : Label → Decoded
  | .cmd w => decodeCmd w
  | .ev e => decodeEv e

/-- The field whose lowest bit is bit `lo` of a word of `w` bits, holding `v`; a word is its fields or-ed together (R7). -/
def field (w lo : Nat) {n : Nat} (v : BitVec n) : BitVec w := v.setWidth w <<< lo

/-- The label of an instruction, by the layouts of R65-R68; reserved bits are 0. -/
def encode : Instr → Label
  | .cfg prd cns pin len =>
    .cmd (field 32 28 0x1#4 ||| field 32 27 (BitVec.ofBool prd) ||| field 32 26 (BitVec.ofBool cns) |||
      field 32 16 (pinField pin) ||| field 32 0 len)
  | .teardown => .cmd (field 32 28 0x2#4)
  | .injectEdge lvl => .cmd (field 32 28 0x3#4 ||| field 32 0 (BitVec.ofBool lvl))
  | .ssLevel v => .ev (field 16 12 0x1#4 ||| field 16 0 (BitVec.ofBool v))
  | .sckBit mosi => .ev (field 16 12 0x2#4 ||| field 16 0 (BitVec.ofBool mosi))
  | .byte m => .ev (field 16 12 0x3#4 ||| field 16 0 m)
  | .rd idx => .ev (field 16 12 0x4#4 ||| field 16 0 idx)
  | .dispatchEdge => .ev (field 16 12 0x8#4)
  | .dispatchByte => .ev (field 16 12 0x9#4)

/-- The label of a word of the opcode table: the row's width tells the port (R63, R76). -/
def labelOfTableWord (nbits w : Nat) : Option Label :=
  if nbits = 32 then some (.cmd (BitVec.ofNat 32 w))
  else if nbits = 16 then some (.ev (BitVec.ofNat 16 w))
  else none

/-- The instruction the decoder reads from a word of the opcode table, if it reads one. -/
def decodeTableWord (nbits w : Nat) : Option Instr :=
  match labelOfTableWord nbits w with
  | none => none
  | some l =>
    match decode l with
    | .instr i => some i
    | .illegalCmd => none
    | .reservedEvent => none

/-- A row of the opcode map (R71): a label's word matches the row when it has the row's format and `word &&& mask = value`. -/
inductive OpcodeRow where
  | cmd32 (value mask : Word)
  | ev16 (value mask : Half)
  deriving DecidableEq, Repr

/-- Does a label match a row? (R71) -/
def OpcodeRow.admits : OpcodeRow → Label → Bool
  | .cmd32 value mask, .cmd w => decide (w &&& mask = value)
  | .ev16 value mask, .ev e => decide (e &&& mask = value)
  | .cmd32 _ _, .ev _ => false
  | .ev16 _ _, .cmd _ => false

/-- The row of each instruction, from the opcode map of R71. -/
def Instr.row : Instr → OpcodeRow
  | .cfg _ _ _ _ => .cmd32 0x10000000#32 0xF3000000#32
  | .teardown => .cmd32 0x20000000#32 0xFFFFFFFF#32
  | .injectEdge _ => .cmd32 0x30000000#32 0xFFFFFFFE#32
  | .ssLevel _ => .ev16 0x1000#16 0xFFFE#16
  | .sckBit _ => .ev16 0x2000#16 0xFFFE#16
  | .byte _ => .ev16 0x3000#16 0xFF00#16
  | .rd _ => .ev16 0x4000#16 0xFFF0#16
  | .dispatchEdge => .ev16 0x8000#16 0xFFFF#16
  | .dispatchByte => .ev16 0x9000#16 0xFFFF#16

/-- The pseudo-instructions of R79: shorthand, not labels of their own. -/
inductive Pseudo where
  /-- `xfer m`: one byte exchanged and handled in time. -/
  | xfer (m : Byte)
  /-- `sel`: select, with a select pin attached. -/
  | sel
  /-- `desel`: deselect, with a select pin attached. -/
  | desel
  /-- `tsel`: select through the test port. -/
  | tsel
  /-- `tdesel`: deselect through the test port. -/
  | tdesel
  deriving DecidableEq, Repr

/-- The labels a pseudo-instruction stands for (R79). The schedule may hold any other label between the two halves. -/
def Pseudo.expand : Pseudo → List Instr
  | .xfer m => [.byte m, .dispatchByte]
  | .sel => [.ssLevel true, .dispatchEdge]
  | .desel => [.ssLevel false, .dispatchEdge]
  | .tsel => [.injectEdge true]
  | .tdesel => [.injectEdge false]

end Sys2Proof
end

