-- ==== Sys2Proof/Machine/State.lean ====
section
/-! DEFINITION. The state of the core (`10_state.md` R22-R37, R42), the reasons a step can stop, and power-on reset (R43,
`70_reset_and_hazards.md` R143). -/

namespace Sys2Proof

/-- The free inputs written in braces after a label (R70, R78). One that is not written is a free value of `Config` (log 8). -/
structure FreeInputs where
  /-- `P`, the PRODUCE answer. -/
  produced : Option (List Byte)
  /-- `stg`, the fate of a late stage. -/
  stg : Option StageChoice
  /-- `dl`, the stale byte. -/
  dl : Option Byte
  /-- `dr`, the overrun byte. -/
  dr : Option Byte
  deriving DecidableEq, Repr

/-- No free input written. -/
def FreeInputs.unwritten : FreeInputs := ⟨none, none, none, none⟩

/-- One entry of a schedule: a label and the free inputs written after it. -/
structure Scheduled where
  label : Label
  free : FreeInputs
  deriving DecidableEq, Repr

end Sys2Proof

namespace Sys2Proof.Machine

/-- EDGE, the Edge State (`10_state.md` R29). -/
inductive Edge where
  | unknown
  | deselected
  | selected
  deriving DecidableEq, Repr

/-- One entry of MISO_TRACE (R42): a driven bit, or `Z`, not driven. -/
inductive Miso where
  | bit (b : Bool)
  | z
  deriving DecidableEq, Repr

/-- What one RD returned to the host (R42 "They are observations too"). -/
structure RdValue where
  idx : BitVec 4
  value : Word
  deriving DecidableEq, Repr

/-- The transfer buffer: written cells, addresses strictly rising, no cell that holds what an unlisted one reads as (0x00, log 4). -/
abbrev Memory := List Host.Cell

/-- Why the machine stops with a fault. -/
inductive Fault where
  /-- MemRead or MemWrite at an index that is not below LEN: the spec defines them for `i < LEN` only (`00_scope.md` R8). Raised by
  `memWrite` and by the reads of SelEntry and DISPATCH_BYTE, in states that break R41 only. Safe (log 11). -/
  | cellNotLive
  deriving DecidableEq, Repr

/-- Why a label has no step. -/
inductive Refusal where
  /-- An instruction of the table without a meaning yet; no arm raises it now. Safe. -/
  | notModelled (mnemonic : String)
  /-- A reserved EV16 word (`30_encoding.md` R74), raised by `step`. Safe: the spec says `refuse`. -/
  | reservedEvent
  /-- BYTE with BITCNT not 0 (`42_byte_clock.md` R109), raised by BYTE. Safe: the spec says `refuse`. -/
  | byteNotAligned
  /-- DISPATCH_EDGE that is not enabled (`41_select_edge.md` R91), raised by DISPATCH_EDGE. Safe: the label has no step (log 7). -/
  | dispatchEdgeNotEnabled
  /-- DISPATCH_BYTE that is not enabled (`42_byte_clock.md` R110), raised by DISPATCH_BYTE. Safe: the label has no step (log 7). -/
  | dispatchByteNotEnabled
  deriving DecidableEq, Repr

/-- The state: the elements of `10_state.md` in its order, then the fields the model adds (INVENTORY.md, State). -/
structure State where
  /-- The machine's parameters BUF_MAX and BIT_ORDER (`00_scope.md` R6); no step changes them (log 1). -/
  par : Params
  /-- ACTIVE (R22). -/
  active : Bool
  /-- LEN (R23). -/
  len : Half
  /-- BUF (R24). -/
  buf : Memory
  /-- RC (R25). -/
  rc : Half
  /-- SC (R26). -/
  sc : Half
  /-- PRD (R27). -/
  prd : Bool
  /-- CNS (R27). -/
  cns : Bool
  /-- PIN (R28). -/
  pin : Byte
  /-- SEL_ATT (R28). -/
  selAtt : Bool
  /-- EDGE (R29). -/
  edge : Edge
  /-- SS_IN (R30). -/
  ssIn : Bool
  /-- SS_PEND (R31). -/
  ssPend : Bool
  /-- TC_PEND (R32). -/
  tcPend : Bool
  /-- SR (R33). -/
  sr : Byte
  /-- BITCNT (R33). -/
  bitCnt : BitVec 3
  /-- TX_REG (R34). -/
  txReg : Byte
  /-- TX_VALID (R34). -/
  txValid : Bool
  /-- RX_REG (R35). -/
  rxReg : Byte
  /-- STALE_TX (R36). -/
  staleTx : Bool
  /-- OVERRUN (R36). -/
  overrun : Bool
  /-- WCOL (R36). -/
  wcol : Bool
  /-- EDGE_LOST (R36). -/
  edgeLost : Bool
  /-- ERR (R37). -/
  err : BitVec 4
  /-- MISO_TRACE (R42), oldest first. -/
  misoTrace : List Miso
  /-- CONSUME_TRACE (R42), oldest first. -/
  consumeTrace : List (List Byte)
  /-- The values RD returned, oldest first (log 12). -/
  rdTrace : List RdValue
  /-- The buffers PRODUCE handed to the host, oldest first (log 12). -/
  produceTrace : List (List Byte)
  /-- The labels still to be taken, next first (log 5). -/
  labels : List Scheduled
  /-- The free inputs written with the label now running (log 8). -/
  given : FreeInputs
  /-- Which free values the label now running takes where none is written (log 8). -/
  drawNo : Nat
  deriving DecidableEq, Repr

/-- The reset column of `10_state.md` R43, for any parameters, any level of the select line (I9), and any contents of SR and of the
buffer cells, which are unspecified (I2). -/
def State.powerOn (par : Params) (ssIn : Bool) (sr : Byte) (buf : Memory) : State where
  par := par
  active := false
  len := 0#16
  buf := buf
  rc := 0#16
  sc := 0#16
  prd := false
  cns := false
  pin := Config.pinSentinel
  selAtt := false
  edge := .unknown
  ssIn := ssIn
  ssPend := false
  tcPend := false
  sr := sr
  bitCnt := 0#3
  txReg := 0x00#8
  txValid := false
  rxReg := 0x00#8
  staleTx := false
  overrun := false
  wcol := false
  edgeLost := false
  err := 0#4
  misoTrace := []
  consumeTrace := []
  rdTrace := []
  produceTrace := []
  labels := []
  given := .unwritten
  drawNo := 0

/-- The machine right after reset. DESIGN CHOICE (unsafe): the parameters (log 1), SS_IN 0 (log 2), SR 0x00 (log 3), no cell listed
(log 4). -/
def State.reset : State := State.powerOn Config.resetParams false 0x00#8 []

end Sys2Proof.Machine
end

