-- ==== Sys2Proof/Machine/Flags.lean ====
section
/-! DEFINITION. Every flag and code a rule computes: the error codes (`60_exceptions.md` R125), the EDGE code (`10_state.md` R29), shift
enable (`42_byte_clock.md` R107), the enables of the two dispatches (`60_exceptions.md` R131) and STATUS (`10_state.md` R39). -/

namespace Sys2Proof.Machine

/-- The result of a command (R125). -/
inductive ErrCode where
  | ok
  | alreadyActive
  | noResource
  | zeroLength
  | illegalCmd
  | notActive
  deriving DecidableEq, Repr

/-- The code of R125. -/
def errCode : ErrCode → BitVec 4
  | .ok => 0#4
  | .alreadyActive => 1#4
  | .noResource => 2#4
  | .zeroLength => 3#4
  | .illegalCmd => 4#4
  | .notActive => 5#4

/-- The two bits of EDGE (R29). -/
def edgeCode : Edge → BitVec 2
  | .unknown => 0b00#2
  | .deselected => 0b01#2
  | .selected => 0b10#2

/-- SHEN (R107). -/
def shiftEnabled (s : State) : Bool :=
  s.active && (!s.selAtt || s.ssIn == Config.selActiveLevel)

/-- DISPATCH_EDGE is enabled (R131). -/
def edgeEnabled (s : State) : Bool :=
  s.active && s.selAtt && s.ssPend

/-- DISPATCH_BYTE is enabled (R131). -/
def byteEnabled (s : State) : Bool :=
  s.active && s.tcPend

/-- The STATUS register: its fields at their bits, every reserved bit 0 (R39). -/
def statusWord (s : State) : Word :=
  field 32 0 (BitVec.ofBool s.active) ||| field 32 1 (edgeCode s.edge) ||| field 32 3 (BitVec.ofBool s.selAtt) |||
    field 32 4 (BitVec.ofBool s.ssIn) ||| field 32 5 (BitVec.ofBool s.ssPend) ||| field 32 6 (BitVec.ofBool s.tcPend) |||
    field 32 8 (BitVec.ofBool s.staleTx) ||| field 32 9 (BitVec.ofBool s.overrun) ||| field 32 10 (BitVec.ofBool s.wcol) |||
    field 32 11 (BitVec.ofBool s.edgeLost) ||| field 32 16 s.err

end Sys2Proof.Machine
end

