-- ==== Sys2Proof/Machine/Operands.lean ====
section
/-! DEFINITION. Operand forms: the host register an index names (`10_state.md` R38-R40) and the free inputs a label takes besides its
word (`30_encoding.md` R70). -/

namespace Sys2Proof.Machine

/-- BIT_ORDER as CAPS shows it (R38). -/
def bitOrderBit : BitOrder → BitVec 1
  | .msbFirst => 0#1
  | .lsbFirst => 1#1

/-- LENR (R38). -/
def lenWord (s : State) : Word := field 32 0 s.len

/-- CURSOR (R38). -/
def cursorWord (s : State) : Word := field 32 0 s.rc ||| field 32 16 s.sc

/-- SHIFT (R38). -/
def shiftWord (s : State) : Word :=
  field 32 0 s.txReg ||| field 32 8 s.rxReg ||| field 32 16 s.bitCnt ||| field 32 19 (BitVec.ofBool s.txValid)

/-- CONFIG (R38). -/
def configWord (s : State) : Word :=
  field 32 0 s.pin ||| field 32 8 (BitVec.ofBool s.prd) ||| field 32 9 (BitVec.ofBool s.cns)

/-- CAPS (R38). -/
def capsWord (s : State) : Word :=
  field 32 0 s.par.bufMax ||| field 32 16 (bitOrderBit s.par.bitOrder)

/-- `Reg(IDX)` of `40_config.md` R83: the register map of R38; CMD and the reserved indices 7 to 15 read 0 (`20_memory.md` R47). -/
def regRead (idx : BitVec 4) (s : State) : Word :=
  if idx = 1#4 then statusWord s
  else if idx = 2#4 then lenWord s
  else if idx = 3#4 then cursorWord s
  else if idx = 4#4 then shiftWord s
  else if idx = 5#4 then configWord s
  else if idx = 6#4 then capsWord s
  else 0#32

/-- `dl` of R70: as written with the label, else free. -/
def staleByte (s : State) : Byte := s.given.dl.getD (Config.freeStaleByte s.drawNo)

/-- `dr` of R70: as written with the label, else free. -/
def overrunByte (s : State) : Byte := s.given.dr.getD (Config.freeOverrunByte s.drawNo)

/-- `stg` of R70: as written with the label, else free. -/
def stageChoice (s : State) : StageChoice := s.given.stg.getD (Config.freeStage s.drawNo)

/-- `P[i]` of R70: as written with the label; a cell the written answer does not reach is free (log 9). -/
def producedByte (s : State) (i : Nat) : Byte :=
  match s.given.produced with
  | none => Config.freeProduced s.drawNo i
  | some p => p[i]?.getD (Config.freeProduced s.drawNo i)

/-- The bits of a byte in the order they cross the wire (`20_memory.md` R49, `42_byte_clock.md` R109). -/
def wireBits : BitOrder → Byte → List Bool
  | .msbFirst, m =>
    [m.getLsbD 7, m.getLsbD 6, m.getLsbD 5, m.getLsbD 4, m.getLsbD 3, m.getLsbD 2, m.getLsbD 1, m.getLsbD 0]
  | .lsbFirst, m =>
    [m.getLsbD 0, m.getLsbD 1, m.getLsbD 2, m.getLsbD 3, m.getLsbD 4, m.getLsbD 5, m.getLsbD 6, m.getLsbD 7]

end Sys2Proof.Machine
end

