-- ==== Sys2Proof/Machine/Ops.lean ====
section
/-! DEFINITION. The shared operations: the buffer (`00_scope.md` R8), `fail` (R10), the emits (R10, R42), the cursor advance (R9) and
Stage (`42_byte_clock.md` R111). There are no traps (`60_exceptions.md` R126): `failCmd` is the core's only error primitive. -/

namespace Sys2Proof.Machine

/-- The outcome of a step. -/
abbrev Result := Host.Outcome State Fault Refusal

/-- Go on with the next state, if there is one. -/
def andThen (o : Result) (k : State → Result) : Result :=
  match o with
  | .next s => k s
  | .fault f => .fault f
  | .refused r => .refused r

/-- What a cell that is not listed reads as. DESIGN CHOICE (log 4): no rule reads such a cell before CFG zeroes it. -/
def unlistedByte : Byte := 0x00#8

/-- One byte of the buffer. -/
def Memory.read : Memory → Nat → Byte
  | [], _ => unlistedByte
  | (b, v) :: m, a => if a = b then v else Memory.read m a

/-- The entry of a cell: none when it holds what an unlisted cell reads as. -/
def cellEntry (a : Nat) (v : Byte) : Memory :=
  if v = unlistedByte then [] else [(a, v)]

/-- Write one byte, keeping the canonical form. -/
def Memory.write (m : Memory) (a : Nat) (v : Byte) : Memory :=
  m.filter (fun c => decide (c.1 < a)) ++ cellEntry a v ++ m.filter fun c => decide (a < c.1)

/-- Cells `0 .. n-1` written with `f`, in ascending order: the loop `for i in 0 .. n-1: MemWrite(i, 1, f i)`. -/
def Memory.fill (m : Memory) (n : Nat) (f : Nat → Byte) : Memory :=
  (List.range n).flatMap (fun i => cellEntry i (f i)) ++ m.filter fun c => decide (n ≤ c.1)

/-- Cells `0 .. n-1` set to 0x00: the loop `for i in 0 .. n-1: MemWrite(i, 1, 0x00)`. -/
def Memory.zero (m : Memory) (n : Nat) : Memory :=
  m.filter fun c => decide (n ≤ c.1)

/-- The canonical form: addresses strictly rising, no cell listed that holds what an unlisted one reads as. -/
abbrev Memory.wf (m : Memory) : Prop :=
  m.Pairwise (fun c d => c.1 < d.1) ∧ ∀ c ∈ m, c.2 ≠ unlistedByte

/-- `MemWrite(i, 1, v)` (R8), defined for `i < LEN` only. -/
def memWrite (i : Nat) (v : Byte) (s : State) : Result :=
  if i < s.len.toNat then .next { s with buf := s.buf.write i v } else .fault .cellNotLive

/-- `MemRead(i, 1)` (R8), defined for `i < LEN` only. -/
def memRead (i : Nat) (s : State) : Option Byte :=
  if i < s.len.toNat then some (s.buf.read i) else none

/-- The live bytes `BUF[0..LEN-1]`. -/
def liveBytes (s : State) : List Byte :=
  (List.range s.len.toNat).map s.buf.read

/-- `for i in 0 .. LEN-1: MemWrite(i, 1, 0x00)` (R46 kind 3). -/
def zeroLive (s : State) : State := { s with buf := s.buf.zero s.len.toNat }

/-- Set ERR: every command writes exactly one code (R125). -/
def setErr (e : ErrCode) (s : State) : State := { s with err := errCode e }

/-- `fail E` (R10): write ERR, change nothing else, end the step. -/
def failCmd (e : ErrCode) (s : State) : Result := .next (setErr e s)

/-- `emit MISO(x)` (R10). -/
def emitMiso (x : Miso) (s : State) : State := { s with misoTrace := s.misoTrace ++ [x] }

/-- `emit CONSUME(BUF[0..LEN-1])` (R10, `41_select_edge.md` R96). -/
def emitConsume (s : State) : State := { s with consumeTrace := s.consumeTrace ++ [liveBytes s] }

/-- `host PRODUCE(BUF[0..LEN-1])` (R10, R95): the live bytes go to the host, and the live cells take the host's answer. -/
def produce (s : State) : State :=
  { s with
    produceTrace := s.produceTrace ++ [liveBytes s]
    buf := s.buf.fill s.len.toNat (producedByte s) }

/-- `return Reg(IDX)` (`40_config.md` R83). -/
def emitRd (idx : BitVec 4) (s : State) : State :=
  { s with rdTrace := s.rdTrace ++ [⟨idx, regRead idx s⟩] }

/-- `(a + 1) mod n` (R9), computed exactly and narrowed. -/
def nextCursor (a n : Half) : Half := BitVec.ofNat 16 ((a.toNat + 1) % n.toNat)

/-- `RC <- (RC + 1) mod LEN`. -/
def advanceRc (s : State) : State := { s with rc := nextCursor s.rc s.len }

/-- `SC <- (SC + 1) mod LEN`. -/
def advanceSc (s : State) : State := { s with sc := nextCursor s.sc s.len }

/-- `RC <- 0 ; SC <- 0`. -/
def resetCursors (s : State) : State := { s with rc := 0#16, sc := 0#16 }

/-- `TX_REG <- v ; TX_VALID <- 1`. -/
def loadTx (v : Byte) (s : State) : State := { s with txReg := v, txValid := true }

/-- `WCOL <- 1`. -/
def dropTx (s : State) : State := { s with wcol := true }

/-- Stage(v) (`42_byte_clock.md` R111). -/
def stage (v : Byte) (s : State) : State :=
  if s.bitCnt = 0#3 then loadTx v s
  else
    match stageChoice s with
    | .take => loadTx v s
    | .drop => dropTx s

/-- `Stage(MemRead(SC, 1)) ; SC <- (SC + 1) mod LEN`: the end of SelEntry (where SC is 0, R93) and of DISPATCH_BYTE (R110). -/
def stageNext (s : State) : Result :=
  match memRead s.sc.toNat s with
  | some v => .next (advanceSc (stage v s))
  | none => .fault .cellNotLive

end Sys2Proof.Machine
end

