-- ==== Sys2Proof/Machine/ByteClock.lean ====
section
/-! DEFINITION. The byte-clock family (`42_byte_clock.md`): SCK_BIT, BYTE and DISPATCH_BYTE. -/

namespace Sys2Proof.Machine

/-- The first bit of a byte loads SR (R108); with nothing staged the byte is `dl`. -/
def loadShift (s : State) : State :=
  if s.txValid then { s with sr := s.txReg, txValid := false }
  else { s with sr := staleByte s, staleTx := true, txValid := false }

/-- The bit SR presents (R108). -/
def outBit : BitOrder → Byte → Bool
  | .msbFirst, sr => sr.getLsbD 7
  | .lsbFirst, sr => sr.getLsbD 0

/-- SR with one bit shifted in (R108). -/
def shiftIn : BitOrder → Byte → Bool → Byte
  | .msbFirst, sr, b => sr.extractLsb' 0 7 ++ BitVec.ofBool b
  | .lsbFirst, sr, b => BitVec.ofBool b ++ sr.extractLsb' 1 7

/-- Present one bit and shift one in (R108). -/
def shiftBit (mosi : Bool) (s : State) : State :=
  { emitMiso (.bit (outBit s.par.bitOrder s.sr)) s with sr := shiftIn s.par.bitOrder s.sr mosi }

/-- The eighth bit completes the byte (R108); with the previous one unhandled the received byte is `dr`. -/
def completeByte (s : State) : State :=
  if s.tcPend then { s with bitCnt := 0#3, rxReg := overrunByte s, overrun := true }
  else { s with bitCnt := 0#3, rxReg := s.sr, tcPend := true }

/-- The end of a bit (R108). -/
def countBit (s : State) : State :=
  if s.bitCnt = 7#3 then completeByte s else { s with bitCnt := s.bitCnt + 1#3 }

/-- One bit of the wire (R108). -/
def clockBit (mosi : Bool) (s : State) : State :=
  if shiftEnabled s then
    countBit (shiftBit mosi (if s.bitCnt = 0#3 then loadShift s else s))
  else emitMiso .z s

/-- SCK_BIT (R108). -/
def execSckBit (mosi : Bool) (s : State) : Result := .next (clockBit mosi s)

/-- BYTE (R109): eight bits with no other step between them. -/
def execByte (m : Byte) (s : State) : Result :=
  if s.bitCnt = 0#3 then .next ((wireBits s.par.bitOrder m).foldl (fun t b => clockBit b t) s)
  else .refused .byteNotAligned

/-- DISPATCH_BYTE (R110): the pending flag first, then receive, then stage. -/
def execDispatchByte (s : State) : Result :=
  if byteEnabled s then
    andThen (memWrite s.rc.toNat s.rxReg { s with tcPend := false }) fun s => stageNext (advanceRc s)
  else .refused .dispatchByteNotEnabled

end Sys2Proof.Machine
end

