-- ==== Sys2Proof/Machine/SelectEdge.lean ====
section
/-! DEFINITION. The select-edge family (`41_select_edge.md`): SS_LEVEL, DISPATCH_EDGE, and the edge body they share with INJECT_EDGE. -/

namespace Sys2Proof.Machine

/-- SelEntry (R93). -/
def selEntry (s : State) : Result :=
  let s := resetCursors s
  stageNext (if s.prd then produce s else s)

/-- DeselEntry (R94). -/
def deselEntry (s : State) : State :=
  zeroLive (if s.cns then emitConsume s else s)

/-- The transition of EDGE (R92): the first run takes the sampled level, every later one toggles. -/
def nextEdge (e : Edge) (lvl : Bool) : Edge :=
  match e with
  | .unknown => if lvl = Config.selActiveLevel then .selected else .deselected
  | .selected => .deselected
  | .deselected => .selected

/-- EdgeBody(lvl) (R92). -/
def edgeBody (lvl : Bool) (s : State) : Result :=
  let s := { s with edge := nextEdge s.edge lvl }
  if s.edge = .selected then selEntry s else .next (deselEntry s)

/-- A change of an attached select line (R90): the pending flag, the merge, the abandoned byte. -/
def selectChange (v : Bool) (s : State) : State :=
  let s := if s.ssPend then { s with edgeLost := true } else { s with ssPend := true }
  if v ≠ Config.selActiveLevel ∧ s.bitCnt ≠ 0#3 then { s with bitCnt := 0#3 } else s

/-- SS_LEVEL (R90). -/
def execSsLevel (v : Bool) (s : State) : Result :=
  let s' := { s with ssIn := v }
  .next (if v ≠ s.ssIn ∧ s.selAtt = true then selectChange v s' else s')

/-- DISPATCH_EDGE (R91): the pending flag is cleared first, the level is sampled now (D18). -/
def execDispatchEdge (s : State) : Result :=
  if edgeEnabled s then edgeBody s.ssIn { s with ssPend := false }
  else .refused .dispatchEdgeNotEnabled

end Sys2Proof.Machine
end

