-- ==== Sys2Proof/Machine/Configure.lean ====
section
/-! DEFINITION. The configuration family (`40_config.md`): CFG, TEARDOWN, INJECT_EDGE, RD, and the illegal command word
(`30_encoding.md` R73). -/

namespace Sys2Proof.Machine

/-- The state after a successful CFG (R80, the column of `10_state.md` R43). -/
def configured (prd cns : Bool) (pin : Byte) (len : Half) (s : State) : State :=
  { s with
    active := true
    len := len
    buf := s.buf.zero len.toNat
    rc := 0#16
    sc := 0#16
    prd := prd
    cns := cns
    pin := pin
    selAtt := decide (pin ≠ Config.pinSentinel)
    edge := .unknown
    ssPend := false
    tcPend := false
    bitCnt := 0#3
    txReg := 0x00#8
    txValid := false
    rxReg := 0x00#8
    staleTx := false
    overrun := false
    wcol := false
    edgeLost := false
    err := errCode .ok }

/-- CFG (R80). A word whose reserved bits are set never reaches here: it decodes as illegal, before every other check. -/
def execCfg (prd cns : Bool) (pin : Option Byte) (len : Half) (s : State) : Result :=
  if s.active then failCmd .alreadyActive s
  else if len = 0#16 then failCmd .zeroLength s
  else if s.par.bufMax < len then failCmd .noResource s
  else .next (configured prd cns (pinField pin) len s)

/-- TEARDOWN (R81). The cells keep their bytes, which nothing can observe (log 4). -/
def execTeardown (s : State) : Result :=
  .next { s with
    selAtt := false
    ssPend := false
    tcPend := false
    active := false
    len := 0#16
    rc := 0#16
    sc := 0#16
    prd := false
    cns := false
    pin := Config.pinSentinel
    edge := .unknown
    bitCnt := 0#3
    txValid := false
    err := errCode .ok }

/-- INJECT_EDGE (R82). -/
def execInjectEdge (lvl : Bool) (s : State) : Result :=
  if s.active then edgeBody lvl (setErr .ok s) else failCmd .notActive s

/-- RD (R83). -/
def execRd (idx : BitVec 4) (s : State) : Result := .next (emitRd idx s)

/-- A CMD32 word of no row (`30_encoding.md` R73). -/
def execIllegalCmd (s : State) : Result := failCmd .illegalCmd s

end Sys2Proof.Machine
end

