-- ==== Sys2Proof/Machine/Dispatch.lean ====
section
/-! DEFINITION. One arm per instruction: the meaning of each. -/

namespace Sys2Proof.Machine

/-- Run one instruction. -/
def exec (i : Instr) (s : State) : Host.Outcome State Fault Refusal :=
  match i with
  | .cfg prd cns pin len => Sys2Proof.Machine.execCfg prd cns pin len s
  | .teardown => Sys2Proof.Machine.execTeardown s
  | .injectEdge lvl => Sys2Proof.Machine.execInjectEdge lvl s
  | .ssLevel v => Sys2Proof.Machine.execSsLevel v s
  | .sckBit mosi => Sys2Proof.Machine.execSckBit mosi s
  | .byte m => Sys2Proof.Machine.execByte m s
  | .rd idx => Sys2Proof.Machine.execRd idx s
  | .dispatchEdge => Sys2Proof.Machine.execDispatchEdge s
  | .dispatchByte => Sys2Proof.Machine.execDispatchByte s

end Sys2Proof.Machine
end

