-- ==== Sys2Proof/Machine/Schedule.lean ====
section
/-! DEFINITION. Which label the machine takes next (`00_scope.md` R12, `60_exceptions.md` R131-R133): the head of the schedule, and with
an empty schedule a dispatch the core can take (log 5, 6). -/

namespace Sys2Proof.Machine

/-- What the machine takes next, with the state in which it runs. -/
inductive Fetched where
  /-- An instruction. -/
  | run (i : Instr) (s : State)
  /-- A command word of no row (`30_encoding.md` R73). -/
  | illegal (s : State)
  /-- An event word of no row (R74). -/
  | reserved
  /-- Nothing to take: the machine is quiescent (`70_reset_and_hazards.md` R157). -/
  | idle
  deriving DecidableEq, Repr

/-- Begin a label: the schedule is `rest`, the free inputs are those written with the label, and unwritten ones are fresh. -/
def beginLabel (free : FreeInputs) (rest : List Scheduled) (s : State) : State :=
  { s with labels := rest, given := free, drawNo := s.drawNo + 1 }

/-- The dispatch the core takes by itself, if one is enabled; the order of two is free (R132). -/
def coreChoice (s : State) : Option Instr :=
  if edgeEnabled s && !(byteEnabled s && Config.freeByteFirst s.drawNo) then some .dispatchEdge
  else if byteEnabled s then some .dispatchByte
  else none

/-- The next label. -/
def fetch (s : State) : Fetched :=
  match s.labels with
  | x :: rest =>
    match decode x.label with
    | .instr i => .run i (beginLabel x.free rest s)
    | .illegalCmd => .illegal (beginLabel x.free rest s)
    | .reservedEvent => .reserved
  | [] =>
    match coreChoice s with
    | some i => .run i (beginLabel .unwritten [] s)
    | none => .idle

/-- Place a label in front of the schedule. -/
def pushLabel (l : Label) (s : State) : State :=
  { s with labels := ⟨l, .unwritten⟩ :: s.labels }

end Sys2Proof.Machine
end

