-- ==== Sys2Proof/Machine/Step.lean ====
section
/-! DEFINITION. One step of the machine: one label, atomically (`00_scope.md` R11). -/

namespace Sys2Proof.Machine

/-- Take the next label (log 5, 6). A quiescent machine stays as it is. -/
def step (s : State) : Host.Outcome State Fault Refusal :=
  match fetch s with
  | .run i t => exec i t
  | .illegal t => execIllegalCmd t
  | .reserved => .refused .reservedEvent
  | .idle => .next s

/-- The state whose next step runs a word of the opcode table: the word stands in front of the schedule. -/
def State.withFetchWord (s : State) (nbits w : Nat) : State :=
  match labelOfTableWord nbits w with
  | some l => pushLabel l s
  | none => s

end Sys2Proof.Machine
end

