-- ==== Sys2Proof/Safety.lean ====
section
/-! DEFINITION. The terms claims use: legal states (`10_state.md` R41), quiescence (`70_reset_and_hazards.md` R157), runs and the launch
premises of R158, and the state elements nothing can observe (R143). -/

namespace Sys2Proof.Machine

/-- The invariants of R41, clause by clause. -/
abbrev State.Legal (s : State) : Prop :=
  (s.active = true → 1#16 ≤ s.len ∧ s.len ≤ s.par.bufMax ∧ s.rc < s.len ∧ s.sc < s.len) ∧
  (s.active = false →
    s.len = 0#16 ∧ s.rc = 0#16 ∧ s.sc = 0#16 ∧ s.prd = false ∧ s.cns = false ∧ s.selAtt = false ∧ s.ssPend = false ∧
      s.tcPend = false ∧ s.bitCnt = 0#3 ∧ s.edge = .unknown) ∧
  (s.selAtt = true → s.active = true ∧ s.pin ≠ Config.pinSentinel) ∧
  edgeCode s.edge ≠ 0b11#2

/-- The buffer is in its canonical form and lists no cell at or above BUF_MAX (R24). -/
abbrev State.BufferOk (s : State) : Prop :=
  s.buf.wf ∧ ∀ c ∈ s.buf, c.1 < s.par.bufMax.toNat

/-- No dispatch is enabled and no label is left (R157). -/
abbrev State.Quiescent (s : State) : Prop :=
  s.labels = [] ∧ edgeEnabled s = false ∧ byteEnabled s = false

/-- When each label's step is enabled: the table of `60_exceptions.md` R131. -/
def enabled : Instr → State → Prop
  | .dispatchEdge, s => s.active = true ∧ s.selAtt = true ∧ s.ssPend = true
  | .dispatchByte, s => s.active = true ∧ s.tcPend = true
  | .ssLevel _, _ => True
  | .sckBit _, _ => True
  | .byte _, s => s.bitCnt = 0#3
  | .cfg _ _ _ _, _ => True
  | .teardown, _ => True
  | .injectEdge _, _ => True
  | .rd _, _ => True

/-- Does the label take a step of the select-edge body, and to which state of EDGE? -/
def edgeAfter : Instr → State → Option Edge
  | .injectEdge lvl, s => if s.active then some (nextEdge s.edge lvl) else none
  | .dispatchEdge, s => if edgeEnabled s then some (nextEdge s.edge s.ssIn) else none
  | .cfg _ _ _ _, _ => none
  | .teardown, _ => none
  | .ssLevel _, _ => none
  | .sckBit _, _ => none
  | .byte _, _ => none
  | .rd _, _ => none
  | .dispatchByte, _ => none

/-- Does the label start a byte on the wire: a bit, shift enabled, with no byte in progress? -/
def startsByte : Instr → State → Bool
  | .sckBit _, s => shiftEnabled s && decide (s.bitCnt = 0#3)
  | .byte _, s => shiftEnabled s && decide (s.bitCnt = 0#3)
  | .cfg _ _ _ _, _ => false
  | .teardown, _ => false
  | .injectEdge _, _ => false
  | .ssLevel _, _ => false
  | .rd _, _ => false
  | .dispatchEdge, _ => false
  | .dispatchByte, _ => false

/-- Does the label complete a byte: its eighth bit, shift enabled? -/
def completesByte : Instr → State → Bool
  | .sckBit _, s => shiftEnabled s && decide (s.bitCnt = 7#3)
  | .byte _, s => shiftEnabled s && decide (s.bitCnt = 0#3)
  | .cfg _ _ _ _, _ => false
  | .teardown, _ => false
  | .injectEdge _, _ => false
  | .ssLevel _, _ => false
  | .rd _, _ => false
  | .dispatchEdge, _ => false
  | .dispatchByte, _ => false

/-- Is the label a change of an attached select line (`41_select_edge.md` R90)? -/
def changesSelect : Instr → State → Bool
  | .ssLevel v, s => decide (v ≠ s.ssIn) && s.selAtt
  | .cfg _ _ _ _, _ => false
  | .teardown, _ => false
  | .injectEdge _, _ => false
  | .sckBit _, _ => false
  | .byte _, _ => false
  | .rd _, _ => false
  | .dispatchEdge, _ => false
  | .dispatchByte, _ => false

/-- Does the label stage a byte: SelEntry, or an enabled DISPATCH_BYTE (`42_byte_clock.md` R111)? -/
def stages (i : Instr) (s : State) : Bool :=
  decide (edgeAfter i s = some .selected) || (decide (i = .dispatchByte) && byteEnabled s)

/-- Does the label stage in time, while no byte is shifting (`42_byte_clock.md` R111)? -/
def stagesInTime (i : Instr) (s : State) : Bool := stages i s && decide (s.bitCnt = 0#3)

/-- Is the label a CFG that succeeds (`40_config.md` R80)? -/
def cfgSucceeds : Instr → State → Bool
  | .cfg _ _ _ len, s => !s.active && decide (len ≠ 0#16) && decide (len ≤ s.par.bufMax)
  | .teardown, _ => false
  | .injectEdge _, _ => false
  | .ssLevel _, _ => false
  | .sckBit _, _ => false
  | .byte _, _ => false
  | .rd _, _ => false
  | .dispatchEdge, _ => false
  | .dispatchByte, _ => false

/-- Run a list of instructions under one set of free inputs, as the bits of one BYTE are. -/
def execAll : List Instr → State → Result
  | [], s => .next s
  | i :: is, s => andThen (exec i s) (execAll is)

/-- Run the machine for a number of steps. -/
def runFor : Nat → State → Result
  | 0, s => .next s
  | k + 1, s => andThen (step s) (runFor k)

/-- The same state with other free inputs in place: each label of the machine has its own (R70, log 8). -/
def State.withInputs (g : FreeInputs) (n : Nat) (s : State) : State := { s with given := g, drawNo := n }

/-- A label of a run: what its word decodes to, the free inputs written with it, and the draw of those that are not (log 8). -/
structure RunLabel where
  decoded : Decoded
  free : FreeInputs
  draw : Nat
  deriving DecidableEq, Repr

/-- The state in which a label of a run takes its step. -/
def RunLabel.start (e : RunLabel) (s : State) : State := s.withInputs e.free e.draw

/-- One label of a run, as one step. -/
def takeLabel (e : RunLabel) (s : State) : Result :=
  match e.decoded with
  | .instr i => exec i (e.start s)
  | .illegalCmd => execIllegalCmd (e.start s)
  | .reservedEvent => .refused .reservedEvent

/-- A run of labels, each with its own free inputs. -/
def runLabels : List RunLabel → State → Result
  | [], s => .next s
  | e :: es, s => andThen (takeLabel e s) (runLabels es)

/-- The label the machine takes next, if it takes one (log 5, 6). -/
def nextLabel (s : State) : Option RunLabel :=
  match s.labels with
  | x :: _ => some ⟨decode x.label, x.free, s.drawNo + 1⟩
  | [] => (coreChoice s).map fun i => ⟨.instr i, .unwritten, s.drawNo + 1⟩

/-- The labels the machine takes in a number of steps. -/
def takenLabels : Nat → State → List RunLabel
  | 0, _ => []
  | k + 1, s =>
    match nextLabel s, step s with
    | some e, .next t => e :: takenLabels k t
    | some e, .fault _ => [e]
    | some e, .refused _ => [e]
    | none, _ => []

/-- One instruction of a run, with the state in which it took its step. -/
structure Event where
  instr : Instr
  start : State
  deriving DecidableEq, Repr

/-- The event of a label; an illegal command word runs no instruction. -/
def eventOf (e : RunLabel) (s : State) : List Event :=
  match e.decoded with
  | .instr i => [⟨i, e.start s⟩]
  | .illegalCmd => []
  | .reservedEvent => []

/-- The events of a run, oldest first. -/
def history : List RunLabel → State → List Event
  | [], _ => []
  | e :: es, s =>
    eventOf e s ++
      match takeLabel e s with
      | .next t => history es t
      | .fault _ => []
      | .refused _ => []

/-- A condition holds of every event of a run. -/
def everyEvent (p : Instr → State → Bool) (h : List Event) : Bool := h.all fun e => p e.instr e.start

/-- How many DISPATCH_BYTE steps a run took. -/
def dispatchCount (h : List Event) : Nat := h.countP fun e => decide (e.instr = .dispatchByte)

/-- The label is no SelEntry, CFG or TEARDOWN (the condition of `42_byte_clock.md` R115). -/
def withinTransaction (i : Instr) (s : State) : Bool :=
  match i with
  | .cfg _ _ _ _ => false
  | .teardown => false
  | .injectEdge _ => decide (edgeAfter i s ≠ some .selected)
  | .dispatchEdge => decide (edgeAfter i s ≠ some .selected)
  | .ssLevel _ => true
  | .sckBit _ => true
  | .byte _ => true
  | .rd _ => true
  | .dispatchByte => true

/-- `CLEAN_ACTIVE(LEN, PIN, PRD, CNS)` of R158, with SS_IN given: the column "after successful CFG" of `10_state.md` R43. That column leaves
SR, the cells above LEN and the traces as they were. -/
abbrev State.CleanActive (len : Half) (pin : Byte) (prd cns ssIn : Bool) (s : State) : Prop :=
  (1#16 ≤ len ∧ len ≤ s.par.bufMax) ∧
  (s.active = true ∧ s.len = len ∧ (∀ a, a < len.toNat → s.buf.read a = 0x00#8) ∧ s.rc = 0#16 ∧ s.sc = 0#16) ∧
  (s.prd = prd ∧ s.cns = cns ∧ s.pin = pin ∧ s.selAtt = decide (pin ≠ Config.pinSentinel)) ∧
  (s.edge = .unknown ∧ s.ssIn = ssIn ∧ s.ssPend = false ∧ s.tcPend = false) ∧
  (s.bitCnt = 0#3 ∧ s.txReg = 0x00#8 ∧ s.txValid = false ∧ s.rxReg = 0x00#8) ∧
  s.staleTx = false ∧ s.overrun = false ∧ s.wcol = false ∧ s.edgeLost = false ∧ s.err = 0#4

/-- What `WELL_FRAMED` asks of the events before a byte: has the SelEntry of the current transaction run, and has the next byte's own stage
run? -/
structure Framing where
  entered : Bool
  staged : Bool
  deriving DecidableEq, Repr

/-- Right after a CFG no transaction has begun and nothing is staged. -/
def Framing.fresh : Framing := ⟨false, false⟩

/-- A transaction is bounded by the edges of the select line (`00_scope.md` R13) and, through the test port, by the edge body
(`70_reset_and_hazards.md` R145): a change of an attached line begins or ends one, and so its SelEntry is still to come. The next byte's own
stage is SelEntry's or that of a DISPATCH_BYTE once the byte before it is complete (R146); one that runs late, in mid-byte, is the stage of
no byte still to start. DEDUCED (log 15). -/
def Framing.after (f : Framing) (e : Event) : Framing :=
  if e.instr = .teardown ∨ cfgSucceeds e.instr e.start = true then .fresh
  else
    { entered :=
        match edgeAfter e.instr e.start with
        | some .selected => true
        | some .deselected => false
        | some .unknown => false
        | none => f.entered && !changesSelect e.instr e.start
      staged := stagesInTime e.instr e.start || (f.staged && !startsByte e.instr e.start) }

/-- `WELL_FRAMED` of R158 at one event: a byte that starts does so while EDGE is SELECTED, after the SelEntry of the current transaction, and
after its own stage; and BITCNT is 0 at every DeselEntry. R158 explains the last clause as "no transaction ends with a partial byte". The two
part where an attached line falls in mid-byte, since R90 zeroes BITCNT before DeselEntry runs: the clause holds there and its explanation
fails. The model tests the clause, so the run `ss 1`, `disp.edge`, one bit, `ss 0`, `disp.edge` is well framed. DESIGN CHOICE (log 16). -/
def framedEvent (f : Framing) (e : Event) : Bool :=
  (!startsByte e.instr e.start || (decide (e.start.edge = .selected) && f.entered && f.staged)) &&
    (decide (edgeAfter e.instr e.start ≠ some .deselected) || decide (e.start.bitCnt = 0#3))

/-- `WELL_FRAMED` of R158, of the events of a run whose past is `f`. -/
def wellFramed : Framing → List Event → Bool
  | _, [] => true
  | f, e :: es => framedEvent f e && wellFramed (f.after e) es

/-- The first condition of `WELL_FRAMED` and its last clause alone: a byte starts only while EDGE is SELECTED, and BITCNT is 0 at every
DeselEntry (log 16). -/
def startsSelected (i : Instr) (s : State) : Bool :=
  (!startsByte i s || decide (s.edge = .selected)) &&
    (decide (edgeAfter i s ≠ some .deselected) || decide (s.bitCnt = 0#3))

/-- `HANDLED_IN_TIME` of R158 at one label: no byte starts and no SS_LEVEL comes while a completed byte is unhandled. -/
def handledInTime (i : Instr) (s : State) : Bool :=
  match i with
  | .ssLevel _ => !s.tcPend
  | .sckBit _ => !(startsByte i s && s.tcPend)
  | .byte _ => !(startsByte i s && s.tcPend)
  | .cfg _ _ _ _ => true
  | .teardown => true
  | .injectEdge _ => true
  | .rd _ => true
  | .dispatchEdge => true
  | .dispatchByte => true

/-- `EDGES_SEPARATED` of R158 at one label: no select change while one is pending. -/
def edgesSeparated (i : Instr) (s : State) : Bool := !(changesSelect i s && s.ssPend)

/-- `NO_HAZARD` of R158. -/
abbrev State.NoHazard (s : State) : Prop :=
  s.staleTx = false ∧ s.overrun = false ∧ s.wcol = false ∧ s.edgeLost = false

/-- EDGE agrees with the select line, up to a change that is still pending, unless a change was merged or the latch has not run yet
(`41_select_edge.md` R98). -/
abbrev State.LatchInStep (s : State) : Prop :=
  s.selAtt = true → s.edgeLost = false → s.edge ≠ .unknown → (s.edge = .selected ↔ s.ssIn ≠ s.ssPend)

/-- Two states that differ at most in what nothing can observe: SR before a load writes it, and the cells that are not live (R143,
`10_state.md` R24, R33). -/
def State.SameObservable (s t : State) : Prop :=
  t = { s with sr := t.sr, buf := t.buf } ∧ (s.bitCnt ≠ 0#3 → t.sr = s.sr) ∧
    ∀ a, a < s.len.toNat → t.buf.read a = s.buf.read a

/-- Two outcomes of the same kind: related next states, or the same reason. -/
def Result.Related (R : State → State → Prop) : Result → Result → Prop
  | .next s, .next t => R s t
  | .fault f, .fault g => f = g
  | .refused q, .refused r => q = r
  | .next _, .fault _ => False
  | .next _, .refused _ => False
  | .fault _, .next _ => False
  | .fault _, .refused _ => False
  | .refused _, .next _ => False
  | .refused _, .fault _ => False

end Sys2Proof.Machine
end

