-- ==== Sys2Proof/Certificates/Slice0/Obligations.lean ====
section
/-! DEFINITION. The statements for the provers. Each docstring names the rule of spec/ it formalises. "The label begun" is the state in
which a scheduled label runs: the schedule moved on, the free inputs written with the label in place (log 5, 8). -/

open Sys2Proof
open Sys2Proof.Machine

/-! ### Encoding -/

/-- R72: the worked encodings decode to the labels they stand for. -/
def Obligations.WorkedEncodingsDecode : Prop :=
  decode (.cmd 0x1CFF0004#32) = .instr (.cfg true true none 4#16) ∧
  decode (.cmd 0x14030002#32) = .instr (.cfg false true (some 3#8) 2#16) ∧
  decode (.cmd 0x10FF0001#32) = .instr (.cfg false false none 1#16) ∧
  decode (.cmd 0x10FF0000#32) = .instr (.cfg false false none 0#16) ∧
  (∀ s, s.active = false → exec (.cfg false false none 0#16) s = .next { s with err := 3#4 }) ∧
  decode (.cmd 0x20000000#32) = .instr .teardown ∧
  decode (.cmd 0x30000001#32) = .instr (.injectEdge true) ∧
  decode (.ev 0x1001#16) = .instr (.ssLevel true) ∧
  decode (.ev 0x2000#16) = .instr (.sckBit false) ∧
  decode (.ev 0x30AA#16) = .instr (.byte 0xAA#8) ∧
  decode (.ev 0x4001#16) = .instr (.rd 1#4) ∧
  decode (.ev 0x8000#16) = .instr .dispatchEdge ∧
  decode (.ev 0x9000#16) = .instr .dispatchByte

/-- Every well-formed instruction is what its own label decodes to (the layouts of R65 to R69). -/
def Obligations.DecodeOfEncodeIsTheInstruction : Prop :=
  ∀ i : Instr, i.wellFormed = true → decode (encode i) = .instr i

/-- Every label that decodes to an instruction is that instruction's own encoding, and the instruction is well-formed: a word has one
meaning. -/
def Obligations.DecodedLabelIsTheEncoding : Prop :=
  ∀ (l : Label) (i : Instr), decode l = .instr i → i.wellFormed = true ∧ encode i = l

/-- R71: the opcode map, row by row, and no word matches two rows of its format. -/
def Obligations.OpcodeMapIsWhatDecodes : Prop :=
  (∀ w, (∃ prd cns pin len, decode (.cmd w) = .instr (.cfg prd cns pin len)) ↔ w &&& 0xF3000000#32 = 0x10000000#32) ∧
  (∀ w, decode (.cmd w) = .instr .teardown ↔ w &&& 0xFFFFFFFF#32 = 0x20000000#32) ∧
  (∀ w, (∃ lvl, decode (.cmd w) = .instr (.injectEdge lvl)) ↔ w &&& 0xFFFFFFFE#32 = 0x30000000#32) ∧
  (∀ e, (∃ v, decode (.ev e) = .instr (.ssLevel v)) ↔ e &&& 0xFFFE#16 = 0x1000#16) ∧
  (∀ e, (∃ b, decode (.ev e) = .instr (.sckBit b)) ↔ e &&& 0xFFFE#16 = 0x2000#16) ∧
  (∀ e, (∃ m, decode (.ev e) = .instr (.byte m)) ↔ e &&& 0xFF00#16 = 0x3000#16) ∧
  (∀ e, (∃ idx, decode (.ev e) = .instr (.rd idx)) ↔ e &&& 0xFFF0#16 = 0x4000#16) ∧
  (∀ e, decode (.ev e) = .instr .dispatchEdge ↔ e &&& 0xFFFF#16 = 0x8000#16) ∧
  (∀ e, decode (.ev e) = .instr .dispatchByte ↔ e &&& 0xFFFF#16 = 0x9000#16) ∧
  ∀ (i j : Instr) (l : Label), i.row.admits l = true → j.row.admits l = true → i.row = j.row

/-- R69: each operand is the unsigned field of its bits. -/
def Obligations.OperandsAreTheFieldsOfTheWord : Prop :=
  (∀ w prd cns pin len, decode (.cmd w) = .instr (.cfg prd cns pin len) →
    len = w.extractLsb' 0 16 ∧ pinField pin = w.extractLsb' 16 8 ∧ prd = w.getLsbD 27 ∧ cns = w.getLsbD 26) ∧
  (∀ w lvl, decode (.cmd w) = .instr (.injectEdge lvl) → lvl = w.getLsbD 0) ∧
  (∀ e v, decode (.ev e) = .instr (.ssLevel v) → v = e.getLsbD 0) ∧
  (∀ e b, decode (.ev e) = .instr (.sckBit b) → b = e.getLsbD 0) ∧
  (∀ e m, decode (.ev e) = .instr (.byte m) → m = e.extractLsb' 0 8) ∧
  (∀ e idx, decode (.ev e) = .instr (.rd idx) → idx = e.extractLsb' 0 4) ∧
  ∀ prd cns pin (len : Half), ∃ w, decode (.cmd w) = .instr (.cfg prd cns (pinOperand pin) len)

/-- R73: exactly when a CMD32 word is illegal, and what it does: ERR becomes 4, and nothing else of the label begun changes. -/
def Obligations.IllegalCommandWordSetsErrOnly : Prop :=
  ∀ (w : Word) (s : State) (free : FreeInputs) (rest : List Scheduled), s.labels = ⟨.cmd w, free⟩ :: rest →
    let op := w.extractLsb' 28 4
    let illegal := op = 0#4 ∨ 4#4 ≤ op ∨ (op = 1#4 ∧ w.extractLsb' 24 2 ≠ 0#2) ∨ (op = 2#4 ∧ w.extractLsb' 0 28 ≠ 0#28) ∨
      (op = 3#4 ∧ w.extractLsb' 1 27 ≠ 0#27)
    (illegal → step s = .next { s with labels := rest, given := free, drawNo := s.drawNo + 1, err := 4#4 }) ∧
    (¬ illegal → ∃ i, decode (.cmd w) = .instr i)

/-- R74: exactly when an EV16 word is refused. -/
def Obligations.ReservedEventWordIsRefused : Prop :=
  ∀ (e : Half) (s : State) (free : FreeInputs) (rest : List Scheduled), s.labels = ⟨.ev e, free⟩ :: rest →
    let kind := e.extractLsb' 12 4
    let reserved := kind = 0#4 ∨ (5#4 ≤ kind ∧ kind ≤ 7#4) ∨ 10#4 ≤ kind ∨
      ((kind = 1#4 ∨ kind = 2#4) ∧ e.extractLsb' 1 11 ≠ 0#11) ∨ (kind = 3#4 ∧ e.extractLsb' 8 4 ≠ 0#4) ∨
      (kind = 4#4 ∧ e.extractLsb' 4 8 ≠ 0#8) ∨ ((kind = 8#4 ∨ kind = 9#4) ∧ e.extractLsb' 0 12 ≠ 0#12)
    (reserved → step s = .refused .reservedEvent) ∧ (¬ reserved → ∃ i, decode (.ev e) = .instr i)

/-! ### The step -/

/-- A step runs the decoded instruction (R11): where the next label of the schedule decodes to `i`, `step` is `exec i` at the label begun, and
nothing is added after it. The schedule is the model's choice (log 5), and so are the fields a label begins with (log 8). -/
def Obligations.StepRunsTheDecodedInstruction : Prop :=
  ∀ (s : State) (l : Label) (free : FreeInputs) (rest : List Scheduled) (i : Instr),
    s.labels = ⟨l, free⟩ :: rest → decode l = .instr i →
      step s = exec i { s with labels := rest, given := free, drawNo := s.drawNo + 1 }

/-- A run of steps is the run of the labels it takes, each with the free inputs and the draw of its own (R11, R70): the two end alike, but for
the schedule that is left. The schedule and the draws are the model's choice (log 5, 6, 8). -/
def Obligations.StepsRunTheLabelsTheyTake : Prop :=
  ∀ (k : Nat) (s : State), Result.Related (fun t u => u = { t with labels := u.labels })
    (runLabels (takenLabels k s) s) (runFor k s)

/-- With an empty schedule the core takes a dispatch that is enabled, either one when both are (R132), and a quiescent machine stays as
it is (R157). That an empty schedule leaves the core to dispatch is the model's choice (log 6). -/
def Obligations.EmptyScheduleLetsTheCoreDispatch : Prop :=
  ∀ s : State, s.labels = [] →
    let t := { s with given := FreeInputs.unwritten, drawNo := s.drawNo + 1 }
    (edgeEnabled s = true → byteEnabled s = false → step s = exec .dispatchEdge t) ∧
    (edgeEnabled s = false → byteEnabled s = true → step s = exec .dispatchByte t) ∧
    (edgeEnabled s = true → byteEnabled s = true → step s = exec .dispatchEdge t ∨ step s = exec .dispatchByte t) ∧
    (edgeEnabled s = false → byteEnabled s = false → step s = .next s)

/-! ### Configuration -/

/-- R80: CFG fails in the order ALREADY_ACTIVE, ZERO_LENGTH, NO_RESOURCE, changing ERR only, and otherwise leaves exactly the state of
R43's column; the cells at and above LEN are unchanged. A word with a reserved bit set fails ILLEGAL_CMD before every other check. -/
def Obligations.CfgConfiguresOrFailsInOrder : Prop :=
  (∀ (prd cns : Bool) (pin : Option Byte) (len : Half) (s : State),
    (s.active = true → exec (.cfg prd cns pin len) s = .next { s with err := 1#4 }) ∧
    (s.active = false → len = 0#16 → exec (.cfg prd cns pin len) s = .next { s with err := 3#4 }) ∧
    (s.active = false → len ≠ 0#16 → s.par.bufMax < len → exec (.cfg prd cns pin len) s = .next { s with err := 2#4 }) ∧
    (s.active = false → len ≠ 0#16 → len ≤ s.par.bufMax → ∃ m : Memory,
      (∀ a, a < len.toNat → m.read a = 0x00#8) ∧ (∀ a, len.toNat ≤ a → m.read a = s.buf.read a) ∧
      exec (.cfg prd cns pin len) s = .next { s with
        active := true, len := len, buf := m, rc := 0#16, sc := 0#16, prd := prd, cns := cns, pin := pinField pin,
        selAtt := decide (pinField pin ≠ 0xFF#8), edge := .unknown, ssPend := false, tcPend := false, bitCnt := 0#3,
        txReg := 0x00#8, txValid := false, rxReg := 0x00#8, staleTx := false, overrun := false, wcol := false,
        edgeLost := false, err := 0#4 })) ∧
  (∀ (w : Word) (s : State) (free : FreeInputs) (rest : List Scheduled), s.labels = ⟨.cmd w, free⟩ :: rest →
    w.extractLsb' 28 4 = 1#4 →
      (w.extractLsb' 24 2 ≠ 0#2 →
        step s = .next { s with labels := rest, given := free, drawNo := s.drawNo + 1, err := 4#4 }) ∧
      (w.extractLsb' 24 2 = 0#2 → ∃ pin, pinField pin = w.extractLsb' 16 8 ∧
        step s = exec (.cfg (w.getLsbD 27) (w.getLsbD 26) pin (w.extractLsb' 0 16))
          { s with labels := rest, given := free, drawNo := s.drawNo + 1 }))

/-- R6 with R80 and R145: BUF_MAX is at least 1, so in every core that is not active a CFG with LEN 1 and one with LEN = BUF_MAX succeed; one
with LEN = BUF_MAX + 1, where there is such a length, fails with NO_RESOURCE. -/
def Obligations.LengthsFromOneToCapacityConfigure : Prop :=
  ∀ (prd cns : Bool) (pin : Option Byte) (s : State), s.active = false →
    (∃ t, exec (.cfg prd cns pin 1#16) s = .next t ∧ t.active = true ∧ t.len = 1#16 ∧ t.err = 0#4) ∧
    (∃ t, exec (.cfg prd cns pin s.par.bufMax) s = .next t ∧ t.active = true ∧ t.len = s.par.bufMax ∧ t.err = 0#4) ∧
    (∀ len : Half, 1 ≤ len.toNat → len.toNat ≤ s.par.bufMax.toNat → ∃ t, exec (.cfg prd cns pin len) s = .next t ∧
      t.active = true ∧ t.len = len ∧ t.err = 0#4) ∧
    (s.par.bufMax ≠ 0xFFFF#16 → exec (.cfg prd cns pin (s.par.bufMax + 1#16)) s = .next { s with err := 2#4 })

/-- R84: from any state with ACTIVE 1, a legal CFG word changes only ERR, which becomes ALREADY_ACTIVE. -/
def Obligations.SecondCfgChangesOnlyErr : Prop :=
  ∀ (w : Word) (s : State) (free : FreeInputs) (rest : List Scheduled), s.labels = ⟨.cmd w, free⟩ :: rest →
    w &&& 0xF3000000#32 = 0x10000000#32 → s.active = true →
      step s = .next { s with labels := rest, given := free, drawNo := s.drawNo + 1, err := 1#4 }

/-- R81: TEARDOWN always succeeds, from every state, and leaves exactly this: the sticky flags, TX_REG, RX_REG, SR, SS_IN and the traces
are kept and there is no CONSUME. A word of its opcode with a reserved bit set fails ILLEGAL_CMD and tears nothing down. That the cells
keep their bytes is the model's choice (log 4): none of them is live. -/
def Obligations.TeardownEmptiesTheCore : Prop :=
  (∀ s : State, exec .teardown s = .next { s with
    active := false, len := 0#16, rc := 0#16, sc := 0#16, prd := false, cns := false, pin := 0xFF#8, selAtt := false,
    edge := .unknown, ssPend := false, tcPend := false, bitCnt := 0#3, txValid := false, err := 0#4 }) ∧
  ∀ (w : Word) (s : State) (free : FreeInputs) (rest : List Scheduled), s.labels = ⟨.cmd w, free⟩ :: rest →
    w.extractLsb' 28 4 = 2#4 →
      (w.extractLsb' 0 28 ≠ 0#28 →
        step s = .next { s with labels := rest, given := free, drawNo := s.drawNo + 1, err := 4#4 }) ∧
      (w.extractLsb' 0 28 = 0#28 →
        step s = exec .teardown { s with labels := rest, given := free, drawNo := s.drawNo + 1 })

/-- R54: TEARDOWN is idempotent, and a CFG after a CFG that configured the core fails with ALREADY_ACTIVE, whatever free inputs the second
label takes. -/
def Obligations.TeardownTwiceIsOnceAndCfgTwiceFails : Prop :=
  (∀ (s t : State) (g : FreeInputs) (n : Nat), exec .teardown s = .next t →
    exec .teardown (t.withInputs g n) = .next (t.withInputs g n)) ∧
  ∀ (prd cns prd' cns' : Bool) (pin pin' : Option Byte) (len len' : Half) (s t : State) (g : FreeInputs) (n : Nat),
    exec (.cfg prd cns pin len) s = .next t → t.err = 0#4 →
      exec (.cfg prd' cns' pin' len') (t.withInputs g n) = .next { t.withInputs g n with err := 1#4 }

/-- R82 with R92 to R96: INJECT_EDGE while ACTIVE is 0 fails NOT_ACTIVE; otherwise it runs the edge body with `lvl`, clears ERR, and
leaves SS_PEND and SS_IN alone. Entering SELECTED: the cursors are reset, the host's answer fills the live cells if a producer is
registered, cell 0 is staged and SC becomes 1 mod LEN. Entering DESELECTED from SELECTED: the snapshot goes to the consumer if one is
registered and every live cell is zeroed. -/
def Obligations.InjectEdgeRunsTheEdgeBody : Prop :=
  ∀ (lvl : Bool) (s : State),
    (s.active = false → exec (.injectEdge lvl) s = .next { s with err := 5#4 }) ∧
    (s.active = true → s.len ≠ 0#16 → (s.edge = .deselected ∨ (s.edge = .unknown ∧ lvl = true)) → ∃ m : Memory,
      (∀ a, m.read a = if s.prd = true ∧ a < s.len.toNat then producedByte s a else s.buf.read a) ∧
      exec (.injectEdge lvl) s = .next (stage (m.read 0) { s with
        err := 0#4, edge := .selected, rc := 0#16, sc := BitVec.ofNat 16 (1 % s.len.toNat), buf := m,
        produceTrace := if s.prd = true then s.produceTrace ++ [(List.range s.len.toNat).map s.buf.read]
          else s.produceTrace })) ∧
    (s.active = true → s.edge = .selected → ∃ m : Memory,
      (∀ a, m.read a = if a < s.len.toNat then 0x00#8 else s.buf.read a) ∧
      exec (.injectEdge lvl) s = .next { s with
        err := 0#4, edge := .deselected, buf := m,
        consumeTrace := if s.cns = true then s.consumeTrace ++ [(List.range s.len.toNat).map s.buf.read]
          else s.consumeTrace })

/-- R83 and R47: RD returns the register and changes nothing else, so a second RD of any register returns what it would have returned
first; that the returned value is kept in a trace is the model's choice (log 12). -/
def Obligations.RdReturnsTheRegisterAndChangesNothing : Prop :=
  (∀ idx : BitVec 4, decode (.ev (0x4000#16 ||| idx.setWidth 16)) = .instr (.rd idx)) ∧
  (∀ (idx : BitVec 4) (s : State), exec (.rd idx) s = .next { s with
    rdTrace := s.rdTrace ++ [⟨idx,
      if idx = 1#4 then statusWord s else if idx = 2#4 then lenWord s else if idx = 3#4 then cursorWord s
      else if idx = 4#4 then shiftWord s else if idx = 5#4 then configWord s else if idx = 6#4 then capsWord s
      else 0#32⟩] }) ∧
  ∀ (i j : BitVec 4) (s t : State), exec (.rd i) s = .next t → regRead j t = regRead j s

/-- R39: every field of STATUS by its bits. -/
def Obligations.StatusFieldsAreAtTheirBits : Prop :=
  ∀ s : State, let w := regRead 1#4 s
    w.getLsbD 0 = s.active ∧
    (s.edge = .unknown → w.extractLsb' 1 2 = 0b00#2) ∧ (s.edge = .deselected → w.extractLsb' 1 2 = 0b01#2) ∧
    (s.edge = .selected → w.extractLsb' 1 2 = 0b10#2) ∧
    w.getLsbD 3 = s.selAtt ∧ w.getLsbD 4 = s.ssIn ∧ w.getLsbD 5 = s.ssPend ∧ w.getLsbD 6 = s.tcPend ∧ w.getLsbD 7 = false ∧
    w.getLsbD 8 = s.staleTx ∧ w.getLsbD 9 = s.overrun ∧ w.getLsbD 10 = s.wcol ∧ w.getLsbD 11 = s.edgeLost ∧
    w.extractLsb' 12 4 = 0#4 ∧ w.extractLsb' 16 4 = s.err ∧ w.extractLsb' 20 12 = 0#12

/-- R38 and R40: the fields of the other registers by their bits; CMD and the reserved indices read 0. -/
def Obligations.RegisterFieldsAreAtTheirBits : Prop :=
  ∀ s : State,
    regRead 0#4 s = 0#32 ∧ (∀ idx : BitVec 4, 7#4 ≤ idx → regRead idx s = 0#32) ∧
    (regRead 2#4 s).extractLsb' 0 16 = s.len ∧ (regRead 2#4 s).extractLsb' 16 16 = 0#16 ∧
    (regRead 3#4 s).extractLsb' 0 16 = s.rc ∧ (regRead 3#4 s).extractLsb' 16 16 = s.sc ∧
    (regRead 4#4 s).extractLsb' 0 8 = s.txReg ∧ (regRead 4#4 s).extractLsb' 8 8 = s.rxReg ∧
    (regRead 4#4 s).extractLsb' 16 3 = s.bitCnt ∧ (regRead 4#4 s).getLsbD 19 = s.txValid ∧
    (regRead 4#4 s).extractLsb' 20 12 = 0#12 ∧
    (regRead 5#4 s).extractLsb' 0 8 = s.pin ∧ (regRead 5#4 s).getLsbD 8 = s.prd ∧ (regRead 5#4 s).getLsbD 9 = s.cns ∧
    (regRead 5#4 s).extractLsb' 10 22 = 0#22 ∧
    (regRead 6#4 s).extractLsb' 0 16 = s.par.bufMax ∧ (regRead 6#4 s).getLsbD 16 = decide (s.par.bitOrder = .lsbFirst) ∧
    (regRead 6#4 s).extractLsb' 17 15 = 0#15

/-! ### Select edge -/

/-- R90: SS_LEVEL answers a next state from every state; only SS_IN, SS_PEND, EDGE_LOST and BITCNT change. -/
def Obligations.SsLevelMovesTheLine : Prop :=
  (∀ v : Bool, decode (.ev (0x1000#16 ||| (BitVec.ofBool v).setWidth 16)) = .instr (.ssLevel v)) ∧
  ∀ (v : Bool) (s : State),
    ((v = s.ssIn ∨ s.selAtt = false) → exec (.ssLevel v) s = .next { s with ssIn := v }) ∧
    (v ≠ s.ssIn → s.selAtt = true → s.ssPend = true → exec (.ssLevel v) s = .next { s with
      ssIn := v, edgeLost := true, bitCnt := if v = false then 0#3 else s.bitCnt }) ∧
    (v ≠ s.ssIn → s.selAtt = true → s.ssPend = false → exec (.ssLevel v) s = .next { s with
      ssIn := v, ssPend := true, bitCnt := if v = false then 0#3 else s.bitCnt })

/-- R91 with R92 to R96: DISPATCH_EDGE that is not enabled has no step (log 7); enabled, it clears SS_PEND and runs the edge body with
the level SS_IN has now. -/
def Obligations.DispatchEdgeRunsTheEdgeBody : Prop :=
  ∀ s : State,
    (¬ (s.active = true ∧ s.selAtt = true ∧ s.ssPend = true) →
      exec .dispatchEdge s = .refused .dispatchEdgeNotEnabled) ∧
    (s.active = true → s.selAtt = true → s.ssPend = true → s.len ≠ 0#16 →
      (s.edge = .deselected ∨ (s.edge = .unknown ∧ s.ssIn = true)) → ∃ m : Memory,
      (∀ a, m.read a = if s.prd = true ∧ a < s.len.toNat then producedByte s a else s.buf.read a) ∧
      exec .dispatchEdge s = .next (stage (m.read 0) { s with
        ssPend := false, edge := .selected, rc := 0#16, sc := BitVec.ofNat 16 (1 % s.len.toNat), buf := m,
        produceTrace := if s.prd = true then s.produceTrace ++ [(List.range s.len.toNat).map s.buf.read]
          else s.produceTrace })) ∧
    (s.active = true → s.selAtt = true → s.ssPend = true → s.edge = .selected → ∃ m : Memory,
      (∀ a, m.read a = if a < s.len.toNat then 0x00#8 else s.buf.read a) ∧
      exec .dispatchEdge s = .next { s with
        ssPend := false, edge := .deselected, buf := m,
        consumeTrace := if s.cns = true then s.consumeTrace ++ [(List.range s.len.toNat).map s.buf.read]
          else s.consumeTrace })

/-- The first run of the edge body with the line low enters DESELECTED and runs DeselEntry, with its CONSUME: the reading of
`92_eei_decisions.md` D17, which the spec marks as its own (`93_implementation_defined.md` I14, log 14). -/
def Obligations.FirstEdgeRunWithTheLineLowRunsDeselEntry : Prop :=
  ∀ s : State, s.active = true → s.edge = .unknown → ∃ m : Memory,
    (∀ a, m.read a = if a < s.len.toNat then 0x00#8 else s.buf.read a) ∧
    (exec (.injectEdge false) s = .next { s with
      err := 0#4, edge := .deselected, buf := m,
      consumeTrace := if s.cns = true then s.consumeTrace ++ [(List.range s.len.toNat).map s.buf.read]
        else s.consumeTrace }) ∧
    (s.selAtt = true → s.ssPend = true → s.ssIn = false → exec .dispatchEdge s = .next { s with
      ssPend := false, edge := .deselected, buf := m,
      consumeTrace := if s.cns = true then s.consumeTrace ++ [(List.range s.len.toNat).map s.buf.read]
        else s.consumeTrace })

/-- R97: a deselect and then a reselect, each with its own edge body and its own free inputs: the CONSUME of the live bytes and the zeroing come
first, then the cursor reset and the PRODUCE, which is handed zeros and whose answer the buffer takes; SC ends at 1 mod LEN. -/
def Obligations.DeselectThenReselectConsumesThenProduces : Prop :=
  ∀ (lvl lvl' : Bool) (s : State), s.Legal → s.active = true → s.edge = .selected → s.cns = true → s.prd = true →
    ∃ t, exec (.injectEdge lvl) s = .next t ∧
      t.consumeTrace = s.consumeTrace ++ [(List.range s.len.toNat).map s.buf.read] ∧ t.produceTrace = s.produceTrace ∧
      t.rc = s.rc ∧ t.sc = s.sc ∧ (∀ a, a < s.len.toNat → t.buf.read a = 0x00#8) ∧
      ∀ (g : FreeInputs) (n : Nat), ∃ u, exec (.injectEdge lvl') (t.withInputs g n) = .next u ∧
        u.consumeTrace = t.consumeTrace ∧ u.produceTrace = s.produceTrace ++ [List.replicate s.len.toNat 0x00#8] ∧
        (∀ a, a < s.len.toNat → u.buf.read a = producedByte (t.withInputs g n) a) ∧
        u.rc = 0#16 ∧ u.sc.toNat = 1 % s.len.toNat ∧ u.edge = .selected

/-- R98: away from the test port, the latch stays in step with the select line, whatever step is taken, as long as no change is merged. -/
def Obligations.LatchStaysInStepWithTheLine : Prop :=
  ∀ (i : Instr) (s t : State), (∀ lvl, i ≠ .injectEdge lvl) → s.LatchInStep → exec i s = .next t → t.LatchInStep

/-! ### Byte clock -/

/-- R108 with R107: SCK_BIT answers a next state from every state. Without shift enable it presents Z and changes nothing; with it, SR is
loaded at the first bit, one bit goes out and one comes in, and the eighth bit completes the byte. SS_LEVEL 0 on an attached line abandons
the byte. -/
def Obligations.SckBitShiftsOneBit : Prop :=
  (∀ b : Bool, decode (.ev (0x2000#16 ||| (BitVec.ofBool b).setWidth 16)) = .instr (.sckBit b)) ∧
  (∀ s : State, s.selAtt = true → s.ssIn = true → ∃ t, exec (.ssLevel false) s = .next t ∧ t.bitCnt = 0#3 ∧
    t.tcPend = s.tcPend) ∧
  ∀ (mosi : Bool) (s : State),
    let shen := s.active && (!s.selAtt || s.ssIn)
    let first := decide (s.bitCnt = 0#3)
    let last := decide (s.bitCnt = 7#3)
    let sr0 := if first then (if s.txValid then s.txReg else staleByte s) else s.sr
    let sr1 := match s.par.bitOrder with
      | .msbFirst => (sr0 <<< 1) ||| (BitVec.ofBool mosi).setWidth 8
      | .lsbFirst => (sr0 >>> 1) ||| ((BitVec.ofBool mosi).setWidth 8 <<< 7)
    let out := match s.par.bitOrder with
      | .msbFirst => sr0.getLsbD 7
      | .lsbFirst => sr0.getLsbD 0
    (shen = false → exec (.sckBit mosi) s = .next { s with misoTrace := s.misoTrace ++ [.z] }) ∧
    (shen = true → exec (.sckBit mosi) s = .next { s with
      sr := sr1
      misoTrace := s.misoTrace ++ [.bit out]
      txValid := if first then false else s.txValid
      staleTx := if first && !s.txValid then true else s.staleTx
      bitCnt := if last then 0#3 else s.bitCnt + 1#3
      rxReg := if last then (if s.tcPend then overrunByte s else sr1) else s.rxReg
      tcPend := if last then true else s.tcPend
      overrun := if last && s.tcPend then true else s.overrun })

/-- R109: BYTE in mid-byte is refused; otherwise it is its eight SCK_BIT steps, and they exchange one whole byte in either bit order. -/
def Obligations.ByteIsEightBitsAndExchangesAByte : Prop :=
  (∀ m : Byte, decode (.ev (0x3000#16 ||| m.setWidth 16)) = .instr (.byte m)) ∧
  ∀ (m : Byte) (s : State),
    let wire (x : Byte) := match s.par.bitOrder with
      | .msbFirst => [7, 6, 5, 4, 3, 2, 1, 0].map fun k => x.getLsbD k
      | .lsbFirst => [0, 1, 2, 3, 4, 5, 6, 7].map fun k => x.getLsbD k
    let shen := s.active && (!s.selAtt || s.ssIn)
    (s.bitCnt ≠ 0#3 → exec (.byte m) s = .refused .byteNotAligned) ∧
    (s.bitCnt = 0#3 → exec (.byte m) s = execAll ((wire m).map Instr.sckBit) s) ∧
    (s.bitCnt = 0#3 → shen = false →
      exec (.byte m) s = .next { s with misoTrace := s.misoTrace ++ List.replicate 8 .z }) ∧
    (s.bitCnt = 0#3 → shen = true → exec (.byte m) s = .next { s with
      misoTrace := s.misoTrace ++ (wire (if s.txValid then s.txReg else staleByte s)).map Miso.bit
      staleTx := if s.txValid then s.staleTx else true
      txValid := false
      sr := m
      rxReg := if s.tcPend then overrunByte s else m
      tcPend := true
      overrun := if s.tcPend then true else s.overrun })

/-- R111: Stage writes TX_REG in time, and late takes or drops as the free input says. -/
def Obligations.StageWritesOrDropsTheByte : Prop :=
  ∀ (v : Byte) (s : State),
    (s.bitCnt = 0#3 → stage v s = { s with txReg := v, txValid := true }) ∧
    (s.bitCnt ≠ 0#3 → stageChoice s = .take → stage v s = { s with txReg := v, txValid := true }) ∧
    (s.bitCnt ≠ 0#3 → stageChoice s = .drop → stage v s = { s with wcol := true })

/-- R110: DISPATCH_BYTE that is not enabled has no step; enabled, with its cursors below LEN as R41 keeps them, it stores RX_REG at RC, then
stages the cell at SC, and advances each cursor by one modulo LEN; every other byte reads as before. -/
def Obligations.DispatchByteStoresThenStages : Prop :=
  decode (.ev 0x9000#16) = .instr .dispatchByte ∧
  ∀ s : State,
    (¬ (s.active = true ∧ s.tcPend = true) → ∀ t, exec .dispatchByte s ≠ .next t) ∧
    (s.active = true → s.tcPend = true → s.rc < s.len → s.sc < s.len → ∃ m : Memory,
      (∀ a, m.read a = if a = s.rc.toNat then s.rxReg else s.buf.read a) ∧
      exec .dispatchByte s = .next (stage (m.read s.sc.toNat) { s with
        tcPend := false, buf := m,
        rc := BitVec.ofNat 16 ((s.rc.toNat + 1) % s.len.toNat),
        sc := BitVec.ofNat 16 ((s.sc.toNat + 1) % s.len.toNat) }))

/-- R79 with R109 and R110: `xfer m`, on a byte that was staged in time and whose predecessor was handled, exchanges one byte and handles
it, whatever free inputs its two labels take: the staged byte goes out, `m` is stored at RC, the cell at SC is staged, and no hazard flag
moves. -/
def Obligations.TransferExchangesOneByteInTime : Prop :=
  ∀ (m : Byte) (s : State) (es : List RunLabel), es.map RunLabel.decoded = (Pseudo.xfer m).expand.map Decoded.instr →
    s.Legal → shiftEnabled s = true → s.bitCnt = 0#3 → s.txValid = true → s.tcPend = false →
    ∃ t, runLabels es s = .next t ∧
      t.misoTrace = s.misoTrace ++ (wireBits s.par.bitOrder s.txReg).map Miso.bit ∧
      (∀ a, t.buf.read a = if a = s.rc.toNat then m else s.buf.read a) ∧
      t.rc.toNat = (s.rc.toNat + 1) % s.len.toNat ∧ t.sc.toNat = (s.sc.toNat + 1) % s.len.toNat ∧
      t.txReg = t.buf.read s.sc.toNat ∧ t.txValid = true ∧ t.tcPend = false ∧ t.bitCnt = 0#3 ∧ t.rxReg = m ∧
      t.staleTx = s.staleTx ∧ t.overrun = s.overrun ∧ t.wcol = s.wcol ∧ t.edgeLost = s.edgeLost

/-- R113: the store comes before the load, so where the cursors meet the staged byte is the byte just received, as it always is in a
buffer of one byte. -/
def Obligations.EqualCursorsEchoTheReceivedByte : Prop :=
  (∀ s : State, s.active = true → s.tcPend = true → s.rc < s.len → s.rc = s.sc → s.bitCnt = 0#3 →
    ∃ t, exec .dispatchByte s = .next t ∧ t.txReg = s.rxReg ∧ t.txValid = true ∧ t.buf.read s.rc.toNat = s.rxReg) ∧
  ∀ s : State, s.Legal → s.active = true → s.len = 1#16 → s.rc = s.sc

/-- R112: the cursor law, step by step, while ACTIVE is 1. -/
def Obligations.OnlyTheCursorLawMovesCursors : Prop :=
  ∀ (i : Instr) (s t : State), s.Legal → s.active = true → exec i s = .next t →
    match i with
    | .dispatchByte => t.rc.toNat = (s.rc.toNat + 1) % s.len.toNat ∧ t.sc.toNat = (s.sc.toNat + 1) % s.len.toNat
    | .injectEdge _ => if t.edge = .selected then t.rc = 0#16 ∧ t.sc.toNat = 1 % s.len.toNat else t.rc = s.rc ∧ t.sc = s.sc
    | .dispatchEdge => if t.edge = .selected then t.rc = 0#16 ∧ t.sc.toNat = 1 % s.len.toNat else t.rc = s.rc ∧ t.sc = s.sc
    | .teardown => t.rc = 0#16 ∧ t.sc = 0#16
    | .cfg _ _ _ _ => t.rc = s.rc ∧ t.sc = s.sc
    | .ssLevel _ => t.rc = s.rc ∧ t.sc = s.sc
    | .sckBit _ => t.rc = s.rc ∧ t.sc = s.sc
    | .byte _ => t.rc = s.rc ∧ t.sc = s.sc
    | .rd _ => t.rc = s.rc ∧ t.sc = s.sc

/-- R115: after a SelEntry and any run of labels, each with its own free inputs, that takes `n` DISPATCH_BYTE steps and has no SelEntry, CFG or
TEARDOWN in it, SC is (1 + n) mod LEN and RC is n mod LEN. -/
def Obligations.SendCursorLeadsByOneThroughoutATransaction : Prop :=
  ∀ (j : Instr) (g : FreeInputs) (d : Nat) (es : List RunLabel) (s₀ s t : State),
    edgeAfter j (s₀.withInputs g d) = some .selected → takeLabel ⟨.instr j, g, d⟩ s₀ = .next s →
    everyEvent withinTransaction (history es s) = true → runLabels es s = .next t →
      t.sc.toNat = (1 + dispatchCount (history es s)) % s.len.toNat ∧
        t.rc.toNat = dispatchCount (history es s) % s.len.toNat ∧ t.len = s.len

/-- R48 and R114: the byte on the wire after a SelEntry is cell 0, and after a DISPATCH_BYTE it is the cell SC held before it, as the
buffer stands after the store, whatever free inputs the BYTE takes. -/
def Obligations.NextByteOnTheWireIsTheStagedCell : Prop :=
  (∀ (m : Byte) (i : Instr) (s t : State) (g : FreeInputs) (n : Nat), s.bitCnt = 0#3 → edgeAfter i s = some .selected →
    exec i s = .next t → shiftEnabled t = true → ∃ u, exec (.byte m) (t.withInputs g n) = .next u ∧
      u.misoTrace = s.misoTrace ++ (wireBits s.par.bitOrder (t.buf.read 0)).map Miso.bit) ∧
  ∀ (m : Byte) (s t : State) (g : FreeInputs) (n : Nat), s.bitCnt = 0#3 → shiftEnabled s = true →
    exec .dispatchByte s = .next t → ∃ u, exec (.byte m) (t.withInputs g n) = .next u ∧
      u.misoTrace = s.misoTrace ++ (wireBits s.par.bitOrder (t.buf.read s.sc.toNat)).map Miso.bit

/-- R154: the last byte still pending at a deselect, whatever free inputs the second dispatch takes. DISPATCH_BYTE first: the snapshot has the
byte. DISPATCH_EDGE first: the snapshot lacks it, and the byte ends in the zeroed buffer at the old RC. -/
def Obligations.PendingLastByteDependsOnTheDispatchOrder : Prop :=
  ∀ s : State, s.Legal → edgeEnabled s = true → byteEnabled s = true → s.edge = .selected → s.cns = true →
    (∃ t, exec .dispatchByte s = .next t ∧ ∀ (g : FreeInputs) (n : Nat), ∃ u, exec .dispatchEdge (t.withInputs g n) = .next u ∧
      u.consumeTrace = s.consumeTrace ++
        [(List.range s.len.toNat).map fun a => if a = s.rc.toNat then s.rxReg else s.buf.read a] ∧
      ∀ a, a < s.len.toNat → u.buf.read a = 0x00#8) ∧
    ∃ t, exec .dispatchEdge s = .next t ∧ ∀ (g : FreeInputs) (n : Nat), ∃ u, exec .dispatchByte (t.withInputs g n) = .next u ∧
      u.consumeTrace = s.consumeTrace ++ [(List.range s.len.toNat).map s.buf.read] ∧
      ∀ a, a < s.len.toNat → u.buf.read a = if a = s.rc.toNat then s.rxReg else 0x00#8

/-! ### Errors and flags -/

/-- R131: each label's step is enabled exactly as the table says. -/
def Obligations.LabelsStepExactlyWhenEnabled : Prop :=
  ∀ (i : Instr) (s : State), s.Legal → ((∃ t, exec i s = .next t) ↔ enabled i s)

/-- In a legal state nothing faults (R56, R8, R41), and a label stops only where the spec gives it no step, by the name of that. That a
dispatch which is not enabled is refused by name is the model's reading (log 7). -/
def Obligations.LegalStatesStopOnlyWhereTheSpecDoes : Prop :=
  ∀ (i : Instr) (s : State), s.Legal →
    (∀ f, exec i s ≠ .fault f) ∧
    ∀ r, exec i s = .refused r →
      ((∃ m, i = .byte m) ∧ s.bitCnt ≠ 0#3 ∧ r = .byteNotAligned) ∨
      (i = .dispatchEdge ∧ edgeEnabled s = false ∧ r = .dispatchEdgeNotEnabled) ∨
      (i = .dispatchByte ∧ byteEnabled s = false ∧ r = .dispatchByteNotEnabled)

/-- R37: ERR is the result of the last command; every command writes it and no other label does. -/
def Obligations.ErrIsWrittenByCommandsOnly : Prop :=
  (∀ (i : Instr) (s t : State), exec i s = .next t →
    match i with
    | .cfg _ _ _ len =>
      t.err = if s.active = true then 1#4 else if len = 0#16 then 3#4 else if s.par.bufMax < len then 2#4 else 0#4
    | .teardown => t.err = 0#4
    | .injectEdge _ => t.err = if s.active = true then 0#4 else 5#4
    | .ssLevel _ => t.err = s.err
    | .sckBit _ => t.err = s.err
    | .byte _ => t.err = s.err
    | .rd _ => t.err = s.err
    | .dispatchEdge => t.err = s.err
    | .dispatchByte => t.err = s.err) ∧
  ∀ (s : State) (w : Word) (free : FreeInputs) (rest : List Scheduled), s.labels = ⟨.cmd w, free⟩ :: rest →
    decode (.cmd w) = .illegalCmd → ∃ t, step s = .next t ∧ t.err = 4#4

/-- R125: a failing command changes only ERR. -/
def Obligations.FailingCommandChangesOnlyErr : Prop :=
  ∀ (i : Instr) (s t : State), ((∃ prd cns pin len, i = .cfg prd cns pin len) ∨ i = .teardown ∨ ∃ lvl, i = .injectEdge lvl) →
    exec i s = .next t → t.err ≠ 0#4 → t = { s with err := t.err }

/-- R36: each sticky flag is set by the rule named and by nothing else, and cleared only by reset and by a CFG that succeeds. -/
def Obligations.StickyFlagsHaveExactlyTheirCauses : Prop :=
  (∀ (i : Instr) (s t : State), exec i s = .next t → cfgSucceeds i s = false →
    t.staleTx = (s.staleTx || (startsByte i s && !s.txValid)) ∧
    t.overrun = (s.overrun || (completesByte i s && s.tcPend)) ∧
    t.wcol = (s.wcol || (stages i s && decide (s.bitCnt ≠ 0#3) && decide (stageChoice s = .drop))) ∧
    t.edgeLost = (s.edgeLost || (changesSelect i s && s.ssPend))) ∧
  (∀ (i : Instr) (s t : State), exec i s = .next t → cfgSucceeds i s = true → t.NoHazard) ∧
  ∀ par ssIn sr buf, (State.powerOn par ssIn sr buf).NoHazard

/-- R132: a single SCK_BIT sets at most one hazard flag. -/
def Obligations.OneBitSetsAtMostOneHazardFlag : Prop :=
  ∀ (b : Bool) (s t : State), exec (.sckBit b) s = .next t →
    t.wcol = s.wcol ∧ t.edgeLost = s.edgeLost ∧ (t.staleTx = s.staleTx ∨ t.overrun = s.overrun)

/-- R22: ACTIVE is set only by a CFG that succeeds and cleared only by TEARDOWN; reset clears it. -/
def Obligations.ActiveMovesOnlyByCfgAndTeardown : Prop :=
  (∀ (i : Instr) (s t : State), exec i s = .next t →
    (s.active = false → t.active = true → cfgSucceeds i s = true) ∧ (s.active = true → t.active = false → i = .teardown)) ∧
  (∀ (i : Instr) (s t : State), exec i s = .next t → cfgSucceeds i s = true → t.active = true) ∧
  ∀ par ssIn sr buf, (State.powerOn par ssIn sr buf).active = false

/-! ### Reset, invariants and whole-machine claims -/

/-- R143: power-on reset leaves the reset column of R43 in every element and both traces empty, whatever SS_IN, SR and the cells are. -/
def Obligations.PowerOnResetValues : Prop :=
  ∀ par ssIn sr buf, let s := State.powerOn par ssIn sr buf
    s.active = false ∧ s.len = 0#16 ∧ s.rc = 0#16 ∧ s.sc = 0#16 ∧ s.prd = false ∧ s.cns = false ∧ s.pin = 0xFF#8 ∧
    s.selAtt = false ∧ s.edge = .unknown ∧ s.ssIn = ssIn ∧ s.ssPend = false ∧ s.tcPend = false ∧ s.sr = sr ∧ s.buf = buf ∧
    s.bitCnt = 0#3 ∧ s.txReg = 0x00#8 ∧ s.txValid = false ∧ s.rxReg = 0x00#8 ∧ s.staleTx = false ∧ s.overrun = false ∧
    s.wcol = false ∧ s.edgeLost = false ∧ s.err = 0#4 ∧ s.misoTrace = [] ∧ s.consumeTrace = []

/-- R144: after reset the state is legal, no dispatch is enabled and SCK_BIT presents Z; `State.reset` is such a state, with a canonical
buffer. -/
def Obligations.ResetIsLegalAndIdle : Prop :=
  (∀ par ssIn sr buf, let s := State.powerOn par ssIn sr buf
    s.Legal ∧ edgeEnabled s = false ∧ byteEnabled s = false ∧
      ∀ b, exec (.sckBit b) s = .next { s with misoTrace := [.z] }) ∧
  State.reset.Legal ∧ State.reset.BufferOk ∧ State.reset.Quiescent

/-- R41: the invariants hold after every step from a state in which they hold. -/
def Obligations.StepKeepsTheInvariants : Prop :=
  ∀ s t : State, s.Legal → step s = .next t → t.Legal

/-- The buffer keeps its canonical form after every step, and no step from a legal state lists a cell at or above BUF_MAX (R24). -/
def Obligations.StepKeepsTheBufferCanonicalAndInside : Prop :=
  (∀ s t : State, s.buf.wf → step s = .next t → t.buf.wf) ∧
  ∀ s t : State, s.Legal → s.BufferOk → step s = .next t → t.BufferOk

/-- R24: the cells at and above LEN are never written: a cell that is live neither before nor after a step reads as before. -/
def Obligations.CellsThatAreNotLiveAreNeverWritten : Prop :=
  ∀ (i : Instr) (s t : State), exec i s = .next t →
    ∀ a, s.len.toNat ≤ a → t.len.toNat ≤ a → t.buf.read a = s.buf.read a

/-- R45 and R137: the bus master reaches neither the buffer nor any register but those of the shift register and the select line. -/
def Obligations.BusMasterReachesOnlyLineAndShiftRegister : Prop :=
  ∀ (i : Instr) (s t : State), ((∃ v, i = .ssLevel v) ∨ (∃ b, i = .sckBit b) ∨ ∃ m, i = .byte m) → exec i s = .next t →
    t = { s with
      ssIn := t.ssIn, ssPend := t.ssPend, edgeLost := t.edgeLost, bitCnt := t.bitCnt, sr := t.sr, txValid := t.txValid,
      staleTx := t.staleTx, rxReg := t.rxReg, tcPend := t.tcPend, overrun := t.overrun, misoTrace := t.misoTrace }

/-- R42: both traces are append-only, and no rule reads them. -/
def Obligations.TracesAreAppendOnlyAndUnread : Prop :=
  ∀ (i : Instr) (s t : State), exec i s = .next t → ∃ miso consume,
    t.misoTrace = s.misoTrace ++ miso ∧ t.consumeTrace = s.consumeTrace ++ consume ∧
    ∀ x y, exec i { s with misoTrace := x, consumeTrace := y } =
      .next { t with misoTrace := x ++ miso, consumeTrace := y ++ consume }

/-- No instruction touches the parameters (R44, log 1), the schedule, or the free inputs of the label (log 5, 8). -/
def Obligations.ExecKeepsParametersAndSchedule : Prop :=
  ∀ (i : Instr) (s t : State), exec i s = .next t →
    t.par = s.par ∧ t.labels = s.labels ∧ t.given = s.given ∧ t.drawNo = s.drawNo

/-- R143 with R24 and R33: SR before a load and the cells that are not live cannot be observed: two states that differ only there take
every label to the same kind of outcome, again differing only there, with equal registers and traces. -/
def Obligations.UnspecifiedContentsCannotBeObserved : Prop :=
  ∀ (i : Instr) (s t : State), s.SameObservable t → Result.Related State.SameObservable (exec i s) (exec i t)

/-- R10 and R44: the model admits every value of every free input: the stale byte, the overrun byte, the fate of a late stage and the
producer's answer. -/
def Obligations.EveryFreeInputIsAdmitted : Prop :=
  (∀ (s : State) (m x : Byte), shiftEnabled s = true → s.bitCnt = 0#3 → s.txValid = false →
    ∃ g t, exec (.byte m) { s with given := g } = .next t ∧
      t.misoTrace = s.misoTrace ++ (wireBits s.par.bitOrder x).map Miso.bit) ∧
  (∀ (s : State) (b : Bool) (x : Byte), shiftEnabled s = true → s.bitCnt = 7#3 → s.tcPend = true →
    ∃ g t, exec (.sckBit b) { s with given := g } = .next t ∧ t.rxReg = x) ∧
  (∀ s : State, byteEnabled s = true → s.rc < s.len → s.sc < s.len → s.bitCnt ≠ 0#3 →
    (∃ g t, exec .dispatchByte { s with given := g } = .next t ∧ t.txValid = true ∧ t.wcol = s.wcol) ∧
    ∃ g t, exec .dispatchByte { s with given := g } = .next t ∧ t.txReg = s.txReg ∧ t.txValid = s.txValid ∧ t.wcol = true) ∧
  ∀ (s : State) (p : List Byte), s.active = true → s.prd = true → s.edge = .deselected → s.len ≠ 0#16 →
    p.length = s.len.toNat →
    ∃ g t, exec (.injectEdge true) { s with given := g } = .next t ∧ (List.range s.len.toNat).map t.buf.read = p

/-- A byte that was staged in time and whose predecessor was handled does not depend on any free input (R108: `dl` and `dr` are used
otherwise only). -/
def Obligations.HazardFreeByteIgnoresFreeInputs : Prop :=
  ∀ (m : Byte) (s : State) (g : FreeInputs) (n : Nat), s.bitCnt = 0#3 → s.txValid = true → s.tcPend = false →
    ∃ t, exec (.byte m) s = .next t ∧
      exec (.byte m) { s with given := g, drawNo := n } = .next { t with given := g, drawNo := n }

/-- R133 with R157: a dispatch that stays enabled is taken: once the schedule and two more steps are over, every run that has not
stopped is quiescent, and a legal machine with an empty schedule reaches quiescence without stopping. That the core dispatches when
the schedule is empty is the model's choice (log 6). -/
def Obligations.EveryRunDrainsItsDispatches : Prop :=
  (∀ (s t : State) (k : Nat), s.labels.length + 2 ≤ k → runFor k s = .next t → t.Quiescent) ∧
  ∀ s : State, s.Legal → s.labels = [] → ∃ t, runFor 2 s = .next t ∧ t.Quiescent ∧ runFor 3 s = .next t

/-- R158, under the model's reading of WELL_FRAMED: from CLEAN_ACTIVE, every run of labels, each with its own free inputs, that keeps
WELL_FRAMED, HANDLED_IN_TIME and EDGES_SEPARATED ends with NO_HAZARD. Where the current transaction begins and ends, and which stage is a
byte's own, is the model's choice (log 15); so is that the last clause tests BITCNT at DeselEntry only (log 16). -/
def Obligations.CleanRunsRaiseNoHazard : Prop :=
  ∀ (len : Half) (pin : Byte) (prd cns ssIn : Bool) (es : List RunLabel) (s t : State),
    s.CleanActive len pin prd cns ssIn → wellFramed .fresh (history es s) = true →
    everyEvent handledInTime (history es s) = true → everyEvent edgesSeparated (history es s) = true →
    runLabels es s = .next t → t.NoHazard

/-- R158 with less: of WELL_FRAMED it is enough that a byte starts only while EDGE is SELECTED and that BITCNT is 0 at every DeselEntry,
which is how the model reads the last clause (log 16). Nothing here rests on log 15. -/
def Obligations.RunsThatStartBytesWhileSelectedRaiseNoHazard : Prop :=
  ∀ (len : Half) (pin : Byte) (prd cns ssIn : Bool) (es : List RunLabel) (s t : State),
    s.CleanActive len pin prd cns ssIn → everyEvent startsSelected (history es s) = true →
    everyEvent handledInTime (history es s) = true → everyEvent edgesSeparated (history es s) = true →
    runLabels es s = .next t → t.NoHazard

/-- CLEAN_ACTIVE of R158 is the state right after a successful CFG with its operands: every such CFG leaves it, and every state that meets it
with a canonical buffer is left by one. -/
def Obligations.CleanActiveIsRightAfterCfg : Prop :=
  (∀ (prd cns : Bool) (pin : Option Byte) (len : Half) (s t : State), cfgSucceeds (.cfg prd cns pin len) s = true →
    exec (.cfg prd cns pin len) s = .next t → t.CleanActive len (pinField pin) prd cns s.ssIn) ∧
  ∀ (prd cns ssIn : Bool) (pin : Option Byte) (len : Half) (t : State), t.buf.wf →
    t.CleanActive len (pinField pin) prd cns ssIn →
      ∃ s, cfgSucceeds (.cfg prd cns pin len) s = true ∧ exec (.cfg prd cns pin len) s = .next t

/-- What the third condition of WELL_FRAMED gives by itself (R146, R108): from CLEAN_ACTIVE, a well-framed run leaves STALE_TX 0, and the byte
it starts next, if it stays well framed, finds TX_VALID 1, whatever became of HANDLED_IN_TIME and EDGES_SEPARATED. Which stage is a byte's own
is the model's choice (log 15). -/
def Obligations.WellFramedRunsSendNoStaleByte : Prop :=
  ∀ (len : Half) (pin : Byte) (prd cns ssIn : Bool) (es : List RunLabel) (e : RunLabel) (i : Instr) (s t : State),
    s.CleanActive len pin prd cns ssIn → e.decoded = .instr i → runLabels es s = .next t →
    wellFramed .fresh (history (es ++ [e]) s) = true →
      t.staleTx = false ∧ (startsByte i t = true → t.txValid = true)
end

