-- ==== Sys2Proof/Laws/Bits.lean ====
section
/-! SUPPORT. The bits of a field, and of a word that is a union of fields. -/

namespace Sys2Proof

/-- Bit `i` of a field is bit `i - lo` of what it holds. -/
@[simp] theorem getLsbD_field (w lo : Nat) {n : Nat} (v : BitVec n) (i : Nat) :
    (field w lo v).getLsbD i = (decide (i < w) && decide (lo ≤ i) && v.getLsbD (i - lo)) := by
  simp only [field, BitVec.getLsbD_shiftLeft, BitVec.getLsbD_setWidth]
  by_cases hw : i < w <;> by_cases hl : lo ≤ i
  · have h1 : ¬ i < lo := by omega
    have h2 : i - lo < w := by omega
    simp [hw, hl, h1, h2]
  · have h1 : i < lo := by omega
    simp [hl, h1]
  · simp [hw]
  · simp [hw]

@[simp] theorem getElem_field (w lo : Nat) {n : Nat} (v : BitVec n) (i : Nat) (h : i < w) :
    (field w lo v)[i] = (decide (lo ≤ i) && v.getLsbD (i - lo)) := by
  rw [← BitVec.getLsbD_eq_getElem, getLsbD_field]
  simp [h]

/-- Bits at and above the width are 0. -/
theorem getLsbD_ge {n : Nat} (v : BitVec n) {i : Nat} (h : n ≤ i) : v.getLsbD i = false :=
  BitVec.getLsbD_of_ge v i h

end Sys2Proof
end

