-- ==== Sys2Proof/Laws/Memory.lean ====
section
/-! SUPPORT. The laws of the buffer: a read after a write, the canonical form, and which cells a list can hold. -/

namespace Sys2Proof.Machine

@[simp] theorem Memory.read_nil (a : Nat) : Memory.read [] a = unlistedByte := rfl

@[simp] theorem Memory.read_cons (b : Nat) (v : Byte) (m : Memory) (a : Nat) :
    Memory.read ((b, v) :: m) a = if a = b then v else Memory.read m a := rfl

/-- A list without the address reads as unlisted. -/
theorem Memory.read_of_absent {m : Memory} {a : Nat} (h : ∀ c ∈ m, c.1 ≠ a) : Memory.read m a = unlistedByte := by
  induction m with
  | nil => rfl
  | cons c m ih =>
    obtain ⟨b, v⟩ := c
    have hb : a ≠ b := fun e => h (b, v) (by simp) e.symm
    simpa [hb] using ih fun c hc => h c (by simp [hc])

theorem Memory.read_append_of_absent {l m : Memory} {a : Nat} (h : ∀ c ∈ l, c.1 ≠ a) :
    Memory.read (l ++ m) a = Memory.read m a := by
  induction l with
  | nil => rfl
  | cons c l ih =>
    obtain ⟨b, v⟩ := c
    have hb : a ≠ b := fun e => h (b, v) (by simp) e.symm
    simpa [hb] using ih fun c hc => h c (by simp [hc])

theorem Memory.read_append_of_absent_right {l m : Memory} {a : Nat} (h : ∀ c ∈ m, c.1 ≠ a) :
    Memory.read (l ++ m) a = Memory.read l a := by
  induction l with
  | nil => simpa using Memory.read_of_absent h
  | cons c l ih => obtain ⟨b, v⟩ := c; simp [ih]

/-- Keeping the cells whose address meets `p` keeps what those cells read as. -/
theorem Memory.read_filter (p : Nat → Bool) (m : Memory) (a : Nat) :
    Memory.read (m.filter fun c => p c.1) a = if p a then Memory.read m a else unlistedByte := by
  induction m with
  | nil => simp
  | cons c m ih =>
    obtain ⟨b, v⟩ := c
    by_cases hb : p b <;> by_cases hab : a = b <;> simp_all

@[simp] theorem Memory.read_cellEntry (b : Nat) (v : Byte) (a : Nat) :
    Memory.read (cellEntry b v) a = if a = b then v else unlistedByte := by
  unfold cellEntry
  split <;> simp_all

theorem cellEntry_fst {b : Nat} {v : Byte} {c : Host.Cell} (h : c ∈ cellEntry b v) : c.1 = b := by
  unfold cellEntry at h
  split at h <;> simp_all

theorem cellEntry_snd {b : Nat} {v : Byte} {c : Host.Cell} (h : c ∈ cellEntry b v) : c.2 ≠ unlistedByte := by
  unfold cellEntry at h
  split at h <;> simp_all

/-- A read after a write: the written byte at its address, every other byte as before. -/
@[simp] theorem Memory.read_write (m : Memory) (a : Nat) (v : Byte) (b : Nat) :
    (m.write a v).read b = if b = a then v else m.read b := by
  unfold Memory.write
  rcases Nat.lt_trichotomy b a with h | h | h
  · rw [Memory.read_append_of_absent_right, Memory.read_append_of_absent_right,
      Memory.read_filter (fun x => decide (x < a))]
    · simp [h, Nat.ne_of_lt h]
    · intro c hc; rw [cellEntry_fst hc]; omega
    · intro c hc; simp at hc; omega
  · subst h
    rw [Memory.read_append_of_absent_right, Memory.read_append_of_absent]
    · simp
    · intro c hc; simp at hc; omega
    · intro c hc; simp at hc; omega
  · rw [Memory.read_append_of_absent, Memory.read_filter (fun x => decide (a < x))]
    · simp [h, Nat.ne_of_gt h]
    · intro c hc
      rcases List.mem_append.1 hc with hc | hc
      · simp at hc; omega
      · rw [cellEntry_fst hc]; omega

/-- The cells below `n` read as 0x00 after `zero`, the others as before. -/
@[simp] theorem Memory.read_zero (m : Memory) (n a : Nat) :
    (m.zero n).read a = if a < n then unlistedByte else m.read a := by
  unfold Memory.zero
  rw [Memory.read_filter (fun x => decide (n ≤ x))]
  by_cases h : a < n <;> simp [h]

theorem Memory.fill_succ_read (n : Nat) (f : Nat → Byte) (a : Nat) :
    Memory.read ((List.range n).flatMap fun i => cellEntry i (f i)) a = if a < n then f a else unlistedByte := by
  induction n with
  | zero => simp
  | succ n ih =>
    rw [List.range_succ, List.flatMap_append]
    by_cases h : a = n
    · subst h
      rw [Memory.read_append_of_absent]
      · simp
      · intro c hc
        obtain ⟨i, hi, hc⟩ := List.mem_flatMap.1 hc
        rw [cellEntry_fst hc]
        simp at hi
        omega
    · rw [Memory.read_append_of_absent_right, ih]
      · by_cases h' : a < n
        · simp [h', Nat.lt_succ_of_lt h']
        · have : ¬ a < n + 1 := by omega
          simp [h', this]
      · intro c hc
        simp only [List.flatMap_cons, List.flatMap_nil, List.append_nil] at hc
        rw [cellEntry_fst hc]
        omega

/-- The cells below `n` read as `f` after `fill`, the others as before. -/
@[simp] theorem Memory.read_fill (m : Memory) (n : Nat) (f : Nat → Byte) (a : Nat) :
    (m.fill n f).read a = if a < n then f a else m.read a := by
  unfold Memory.fill
  by_cases h : a < n
  · rw [Memory.read_append_of_absent_right, Memory.fill_succ_read]
    · simp [h]
    · intro c hc; simp at hc; omega
  · rw [Memory.read_append_of_absent, Memory.read_filter (fun x => decide (n ≤ x))]
    · simp [h]
    · intro c hc
      obtain ⟨i, hi, hc⟩ := List.mem_flatMap.1 hc
      rw [cellEntry_fst hc]
      simp at hi
      omega

/-- Zeroing is filling with 0x00. -/
theorem Memory.zero_eq_fill (m : Memory) (n : Nat) : m.zero n = m.fill n fun _ => unlistedByte := by
  simp [Memory.zero, Memory.fill, cellEntry]

/-- Every address that is listed is below `b`. -/
abbrev Memory.below (m : Memory) (b : Nat) : Prop := ∀ c ∈ m, c.1 < b

theorem Memory.mem_write {m : Memory} {a : Nat} {v : Byte} {c : Host.Cell} (h : c ∈ m.write a v) :
    c ∈ m ∨ c.1 = a := by
  unfold Memory.write at h
  rcases List.mem_append.1 h with h | h
  · rcases List.mem_append.1 h with h | h
    · exact .inl (List.mem_filter.1 h).1
    · exact .inr (cellEntry_fst h)
  · exact .inl (List.mem_filter.1 h).1

theorem Memory.mem_zero {m : Memory} {n : Nat} {c : Host.Cell} (h : c ∈ m.zero n) : c ∈ m :=
  (List.mem_filter.1 h).1

theorem Memory.mem_fill {m : Memory} {n : Nat} {f : Nat → Byte} {c : Host.Cell} (h : c ∈ m.fill n f) :
    c ∈ m ∨ c.1 < n := by
  unfold Memory.fill at h
  rcases List.mem_append.1 h with h | h
  · obtain ⟨i, hi, hc⟩ := List.mem_flatMap.1 h
    rw [cellEntry_fst hc]
    exact .inr (List.mem_range.1 hi)
  · exact .inl (List.mem_filter.1 h).1

theorem Memory.wf_nil : Memory.wf [] := by simp [Memory.wf]

theorem Memory.zero_wf {m : Memory} (h : m.wf) (n : Nat) : (m.zero n).wf :=
  ⟨h.1.filter _, fun c hc => h.2 c (Memory.mem_zero hc)⟩

theorem cellEntry_pairwise (a : Nat) (v : Byte) : (cellEntry a v).Pairwise fun c d => c.1 < d.1 := by
  unfold cellEntry
  split <;> simp

theorem Memory.write_wf {m : Memory} (h : m.wf) (a : Nat) (v : Byte) : (m.write a v).wf := by
  constructor
  · unfold Memory.write
    refine List.pairwise_append.2 ⟨List.pairwise_append.2 ⟨h.1.filter _, cellEntry_pairwise a v, ?_⟩, h.1.filter _, ?_⟩
    · intro c hc d hd
      rw [cellEntry_fst hd]
      simpa using (List.mem_filter.1 hc).2
    · intro c hc d hd
      have hd' : a < d.1 := by simpa using (List.mem_filter.1 hd).2
      rcases List.mem_append.1 hc with hc | hc
      · have : c.1 < a := by simpa using (List.mem_filter.1 hc).2
        omega
      · rw [cellEntry_fst hc]; exact hd'
  · intro c hc
    unfold Memory.write at hc
    rcases List.mem_append.1 hc with hc | hc
    · rcases List.mem_append.1 hc with hc | hc
      · exact h.2 c (List.mem_filter.1 hc).1
      · exact cellEntry_snd hc
    · exact h.2 c (List.mem_filter.1 hc).1

theorem Memory.fillCells_wf (n : Nat) (f : Nat → Byte) :
    Memory.wf ((List.range n).flatMap fun i => cellEntry i (f i)) := by
  induction n with
  | zero => simp [Memory.wf]
  | succ n ih =>
    rw [List.range_succ, List.flatMap_append]
    refine ⟨List.pairwise_append.2 ⟨ih.1, by simpa using cellEntry_pairwise n (f n), ?_⟩, ?_⟩
    · intro c hc d hd
      obtain ⟨i, hi, hc⟩ := List.mem_flatMap.1 hc
      simp only [List.flatMap_cons, List.flatMap_nil, List.append_nil] at hd
      rw [cellEntry_fst hc, cellEntry_fst hd]
      exact List.mem_range.1 hi
    · intro c hc
      rcases List.mem_append.1 hc with hc | hc
      · exact ih.2 c hc
      · simp only [List.flatMap_cons, List.flatMap_nil, List.append_nil] at hc
        exact cellEntry_snd hc

theorem Memory.fill_wf {m : Memory} (h : m.wf) (n : Nat) (f : Nat → Byte) : (m.fill n f).wf := by
  constructor
  · unfold Memory.fill
    refine List.pairwise_append.2 ⟨(Memory.fillCells_wf n f).1, h.1.filter _, ?_⟩
    intro c hc d hd
    obtain ⟨i, hi, hc⟩ := List.mem_flatMap.1 hc
    have hd' : n ≤ d.1 := by simpa using (List.mem_filter.1 hd).2
    rw [cellEntry_fst hc]
    have := List.mem_range.1 hi
    omega
  · intro c hc
    unfold Memory.fill at hc
    rcases List.mem_append.1 hc with hc | hc
    · exact (Memory.fillCells_wf n f).2 c hc
    · exact h.2 c (List.mem_filter.1 hc).1

theorem Memory.ext_cons_ne {b : Nat} {v : Byte} {m : Memory} (h : Memory.wf ((b, v) :: m)) :
    (∀ c ∈ m, b < c.1) ∧ v ≠ unlistedByte ∧ Memory.wf m := by
  obtain ⟨hp, hz⟩ := h
  rw [List.pairwise_cons] at hp
  exact ⟨hp.1, hz (b, v) (by simp), hp.2, fun c hc => hz c (by simp [hc])⟩

/-- Equal memories are equal data: two canonical lists that read alike are the same list. -/
theorem Memory.eq_of_read_eq {m n : Memory} (hm : m.wf) (hn : n.wf) (h : ∀ a, m.read a = n.read a) : m = n := by
  induction m generalizing n with
  | nil =>
    cases n with
    | nil => rfl
    | cons d n =>
      obtain ⟨e, w⟩ := d
      have := h e
      simp at this
      exact absurd this.symm (Memory.ext_cons_ne hn).2.1
  | cons c m ih =>
    obtain ⟨b, v⟩ := c
    obtain ⟨hb, hv, hm'⟩ := Memory.ext_cons_ne hm
    cases n with
    | nil =>
      have := h b
      simp at this
      exact absurd this hv
    | cons d n =>
      obtain ⟨e, w⟩ := d
      obtain ⟨he, hw, hn'⟩ := Memory.ext_cons_ne hn
      have hbe : b = e := by
        rcases Nat.lt_trichotomy b e with hlt | heq | hlt
        · have hr := h b
          rw [Memory.read_of_absent (m := (e, w) :: n)
            (by intro c hc; rcases List.mem_cons.1 hc with rfl | hc; · simp; omega
                · have := he c hc; omega)] at hr
          simp at hr
          exact absurd hr hv
        · exact heq
        · have hr := h e
          rw [Memory.read_of_absent (m := (b, v) :: m)
            (by intro c hc; rcases List.mem_cons.1 hc with rfl | hc; · simp; omega
                · have := hb c hc; omega)] at hr
          simp at hr
          exact absurd hr.symm hw
      subst hbe
      have hvw : v = w := by simpa using h b
      subst hvw
      have : m = n := by
        refine ih hm' hn' fun a => ?_
        by_cases hab : a = b
        · subst hab
          rw [Memory.read_of_absent fun c hc => Nat.ne_of_gt (hb c hc),
            Memory.read_of_absent fun c hc => Nat.ne_of_gt (he c hc)]
        · simpa [hab] using h a
      rw [this]

end Sys2Proof.Machine
end

