-- ==== Sys2Proof/Laws/State.lean ====
section
/-! SUPPORT. What each named update of the state leaves in each field. -/

namespace Sys2Proof.Machine

@[simp] theorem setErr_par (e : ErrCode) (s : State) : (setErr e s).par = s.par := rfl
@[simp] theorem setErr_active (e : ErrCode) (s : State) : (setErr e s).active = s.active := rfl
@[simp] theorem setErr_len (e : ErrCode) (s : State) : (setErr e s).len = s.len := rfl
@[simp] theorem setErr_buf (e : ErrCode) (s : State) : (setErr e s).buf = s.buf := rfl
@[simp] theorem setErr_rc (e : ErrCode) (s : State) : (setErr e s).rc = s.rc := rfl
@[simp] theorem setErr_sc (e : ErrCode) (s : State) : (setErr e s).sc = s.sc := rfl
@[simp] theorem setErr_prd (e : ErrCode) (s : State) : (setErr e s).prd = s.prd := rfl
@[simp] theorem setErr_cns (e : ErrCode) (s : State) : (setErr e s).cns = s.cns := rfl
@[simp] theorem setErr_pin (e : ErrCode) (s : State) : (setErr e s).pin = s.pin := rfl
@[simp] theorem setErr_selAtt (e : ErrCode) (s : State) : (setErr e s).selAtt = s.selAtt := rfl
@[simp] theorem setErr_edge (e : ErrCode) (s : State) : (setErr e s).edge = s.edge := rfl
@[simp] theorem setErr_ssIn (e : ErrCode) (s : State) : (setErr e s).ssIn = s.ssIn := rfl
@[simp] theorem setErr_ssPend (e : ErrCode) (s : State) : (setErr e s).ssPend = s.ssPend := rfl
@[simp] theorem setErr_tcPend (e : ErrCode) (s : State) : (setErr e s).tcPend = s.tcPend := rfl
@[simp] theorem setErr_sr (e : ErrCode) (s : State) : (setErr e s).sr = s.sr := rfl
@[simp] theorem setErr_bitCnt (e : ErrCode) (s : State) : (setErr e s).bitCnt = s.bitCnt := rfl
@[simp] theorem setErr_txReg (e : ErrCode) (s : State) : (setErr e s).txReg = s.txReg := rfl
@[simp] theorem setErr_txValid (e : ErrCode) (s : State) : (setErr e s).txValid = s.txValid := rfl
@[simp] theorem setErr_rxReg (e : ErrCode) (s : State) : (setErr e s).rxReg = s.rxReg := rfl
@[simp] theorem setErr_staleTx (e : ErrCode) (s : State) : (setErr e s).staleTx = s.staleTx := rfl
@[simp] theorem setErr_overrun (e : ErrCode) (s : State) : (setErr e s).overrun = s.overrun := rfl
@[simp] theorem setErr_wcol (e : ErrCode) (s : State) : (setErr e s).wcol = s.wcol := rfl
@[simp] theorem setErr_edgeLost (e : ErrCode) (s : State) : (setErr e s).edgeLost = s.edgeLost := rfl
@[simp] theorem setErr_err (e : ErrCode) (s : State) : (setErr e s).err = errCode e := rfl
@[simp] theorem setErr_misoTrace (e : ErrCode) (s : State) : (setErr e s).misoTrace = s.misoTrace := rfl
@[simp] theorem setErr_consumeTrace (e : ErrCode) (s : State) : (setErr e s).consumeTrace = s.consumeTrace := rfl
@[simp] theorem setErr_rdTrace (e : ErrCode) (s : State) : (setErr e s).rdTrace = s.rdTrace := rfl
@[simp] theorem setErr_produceTrace (e : ErrCode) (s : State) : (setErr e s).produceTrace = s.produceTrace := rfl
@[simp] theorem setErr_labels (e : ErrCode) (s : State) : (setErr e s).labels = s.labels := rfl
@[simp] theorem setErr_given (e : ErrCode) (s : State) : (setErr e s).given = s.given := rfl
@[simp] theorem setErr_drawNo (e : ErrCode) (s : State) : (setErr e s).drawNo = s.drawNo := rfl

@[simp] theorem emitMiso_par (x : Miso) (s : State) : (emitMiso x s).par = s.par := rfl
@[simp] theorem emitMiso_active (x : Miso) (s : State) : (emitMiso x s).active = s.active := rfl
@[simp] theorem emitMiso_len (x : Miso) (s : State) : (emitMiso x s).len = s.len := rfl
@[simp] theorem emitMiso_buf (x : Miso) (s : State) : (emitMiso x s).buf = s.buf := rfl
@[simp] theorem emitMiso_rc (x : Miso) (s : State) : (emitMiso x s).rc = s.rc := rfl
@[simp] theorem emitMiso_sc (x : Miso) (s : State) : (emitMiso x s).sc = s.sc := rfl
@[simp] theorem emitMiso_prd (x : Miso) (s : State) : (emitMiso x s).prd = s.prd := rfl
@[simp] theorem emitMiso_cns (x : Miso) (s : State) : (emitMiso x s).cns = s.cns := rfl
@[simp] theorem emitMiso_pin (x : Miso) (s : State) : (emitMiso x s).pin = s.pin := rfl
@[simp] theorem emitMiso_selAtt (x : Miso) (s : State) : (emitMiso x s).selAtt = s.selAtt := rfl
@[simp] theorem emitMiso_edge (x : Miso) (s : State) : (emitMiso x s).edge = s.edge := rfl
@[simp] theorem emitMiso_ssIn (x : Miso) (s : State) : (emitMiso x s).ssIn = s.ssIn := rfl
@[simp] theorem emitMiso_ssPend (x : Miso) (s : State) : (emitMiso x s).ssPend = s.ssPend := rfl
@[simp] theorem emitMiso_tcPend (x : Miso) (s : State) : (emitMiso x s).tcPend = s.tcPend := rfl
@[simp] theorem emitMiso_sr (x : Miso) (s : State) : (emitMiso x s).sr = s.sr := rfl
@[simp] theorem emitMiso_bitCnt (x : Miso) (s : State) : (emitMiso x s).bitCnt = s.bitCnt := rfl
@[simp] theorem emitMiso_txReg (x : Miso) (s : State) : (emitMiso x s).txReg = s.txReg := rfl
@[simp] theorem emitMiso_txValid (x : Miso) (s : State) : (emitMiso x s).txValid = s.txValid := rfl
@[simp] theorem emitMiso_rxReg (x : Miso) (s : State) : (emitMiso x s).rxReg = s.rxReg := rfl
@[simp] theorem emitMiso_staleTx (x : Miso) (s : State) : (emitMiso x s).staleTx = s.staleTx := rfl
@[simp] theorem emitMiso_overrun (x : Miso) (s : State) : (emitMiso x s).overrun = s.overrun := rfl
@[simp] theorem emitMiso_wcol (x : Miso) (s : State) : (emitMiso x s).wcol = s.wcol := rfl
@[simp] theorem emitMiso_edgeLost (x : Miso) (s : State) : (emitMiso x s).edgeLost = s.edgeLost := rfl
@[simp] theorem emitMiso_err (x : Miso) (s : State) : (emitMiso x s).err = s.err := rfl
@[simp] theorem emitMiso_misoTrace (x : Miso) (s : State) : (emitMiso x s).misoTrace = s.misoTrace ++ [x] := rfl
@[simp] theorem emitMiso_consumeTrace (x : Miso) (s : State) : (emitMiso x s).consumeTrace = s.consumeTrace := rfl
@[simp] theorem emitMiso_rdTrace (x : Miso) (s : State) : (emitMiso x s).rdTrace = s.rdTrace := rfl
@[simp] theorem emitMiso_produceTrace (x : Miso) (s : State) : (emitMiso x s).produceTrace = s.produceTrace := rfl
@[simp] theorem emitMiso_labels (x : Miso) (s : State) : (emitMiso x s).labels = s.labels := rfl
@[simp] theorem emitMiso_given (x : Miso) (s : State) : (emitMiso x s).given = s.given := rfl
@[simp] theorem emitMiso_drawNo (x : Miso) (s : State) : (emitMiso x s).drawNo = s.drawNo := rfl

@[simp] theorem emitConsume_par (s : State) : (emitConsume s).par = s.par := rfl
@[simp] theorem emitConsume_active (s : State) : (emitConsume s).active = s.active := rfl
@[simp] theorem emitConsume_len (s : State) : (emitConsume s).len = s.len := rfl
@[simp] theorem emitConsume_buf (s : State) : (emitConsume s).buf = s.buf := rfl
@[simp] theorem emitConsume_rc (s : State) : (emitConsume s).rc = s.rc := rfl
@[simp] theorem emitConsume_sc (s : State) : (emitConsume s).sc = s.sc := rfl
@[simp] theorem emitConsume_prd (s : State) : (emitConsume s).prd = s.prd := rfl
@[simp] theorem emitConsume_cns (s : State) : (emitConsume s).cns = s.cns := rfl
@[simp] theorem emitConsume_pin (s : State) : (emitConsume s).pin = s.pin := rfl
@[simp] theorem emitConsume_selAtt (s : State) : (emitConsume s).selAtt = s.selAtt := rfl
@[simp] theorem emitConsume_edge (s : State) : (emitConsume s).edge = s.edge := rfl
@[simp] theorem emitConsume_ssIn (s : State) : (emitConsume s).ssIn = s.ssIn := rfl
@[simp] theorem emitConsume_ssPend (s : State) : (emitConsume s).ssPend = s.ssPend := rfl
@[simp] theorem emitConsume_tcPend (s : State) : (emitConsume s).tcPend = s.tcPend := rfl
@[simp] theorem emitConsume_sr (s : State) : (emitConsume s).sr = s.sr := rfl
@[simp] theorem emitConsume_bitCnt (s : State) : (emitConsume s).bitCnt = s.bitCnt := rfl
@[simp] theorem emitConsume_txReg (s : State) : (emitConsume s).txReg = s.txReg := rfl
@[simp] theorem emitConsume_txValid (s : State) : (emitConsume s).txValid = s.txValid := rfl
@[simp] theorem emitConsume_rxReg (s : State) : (emitConsume s).rxReg = s.rxReg := rfl
@[simp] theorem emitConsume_staleTx (s : State) : (emitConsume s).staleTx = s.staleTx := rfl
@[simp] theorem emitConsume_overrun (s : State) : (emitConsume s).overrun = s.overrun := rfl
@[simp] theorem emitConsume_wcol (s : State) : (emitConsume s).wcol = s.wcol := rfl
@[simp] theorem emitConsume_edgeLost (s : State) : (emitConsume s).edgeLost = s.edgeLost := rfl
@[simp] theorem emitConsume_err (s : State) : (emitConsume s).err = s.err := rfl
@[simp] theorem emitConsume_misoTrace (s : State) : (emitConsume s).misoTrace = s.misoTrace := rfl
@[simp] theorem emitConsume_consumeTrace (s : State) : (emitConsume s).consumeTrace = s.consumeTrace ++ [liveBytes s] := rfl
@[simp] theorem emitConsume_rdTrace (s : State) : (emitConsume s).rdTrace = s.rdTrace := rfl
@[simp] theorem emitConsume_produceTrace (s : State) : (emitConsume s).produceTrace = s.produceTrace := rfl
@[simp] theorem emitConsume_labels (s : State) : (emitConsume s).labels = s.labels := rfl
@[simp] theorem emitConsume_given (s : State) : (emitConsume s).given = s.given := rfl
@[simp] theorem emitConsume_drawNo (s : State) : (emitConsume s).drawNo = s.drawNo := rfl

@[simp] theorem emitRd_par (idx : BitVec 4) (s : State) : (emitRd idx s).par = s.par := rfl
@[simp] theorem emitRd_active (idx : BitVec 4) (s : State) : (emitRd idx s).active = s.active := rfl
@[simp] theorem emitRd_len (idx : BitVec 4) (s : State) : (emitRd idx s).len = s.len := rfl
@[simp] theorem emitRd_buf (idx : BitVec 4) (s : State) : (emitRd idx s).buf = s.buf := rfl
@[simp] theorem emitRd_rc (idx : BitVec 4) (s : State) : (emitRd idx s).rc = s.rc := rfl
@[simp] theorem emitRd_sc (idx : BitVec 4) (s : State) : (emitRd idx s).sc = s.sc := rfl
@[simp] theorem emitRd_prd (idx : BitVec 4) (s : State) : (emitRd idx s).prd = s.prd := rfl
@[simp] theorem emitRd_cns (idx : BitVec 4) (s : State) : (emitRd idx s).cns = s.cns := rfl
@[simp] theorem emitRd_pin (idx : BitVec 4) (s : State) : (emitRd idx s).pin = s.pin := rfl
@[simp] theorem emitRd_selAtt (idx : BitVec 4) (s : State) : (emitRd idx s).selAtt = s.selAtt := rfl
@[simp] theorem emitRd_edge (idx : BitVec 4) (s : State) : (emitRd idx s).edge = s.edge := rfl
@[simp] theorem emitRd_ssIn (idx : BitVec 4) (s : State) : (emitRd idx s).ssIn = s.ssIn := rfl
@[simp] theorem emitRd_ssPend (idx : BitVec 4) (s : State) : (emitRd idx s).ssPend = s.ssPend := rfl
@[simp] theorem emitRd_tcPend (idx : BitVec 4) (s : State) : (emitRd idx s).tcPend = s.tcPend := rfl
@[simp] theorem emitRd_sr (idx : BitVec 4) (s : State) : (emitRd idx s).sr = s.sr := rfl
@[simp] theorem emitRd_bitCnt (idx : BitVec 4) (s : State) : (emitRd idx s).bitCnt = s.bitCnt := rfl
@[simp] theorem emitRd_txReg (idx : BitVec 4) (s : State) : (emitRd idx s).txReg = s.txReg := rfl
@[simp] theorem emitRd_txValid (idx : BitVec 4) (s : State) : (emitRd idx s).txValid = s.txValid := rfl
@[simp] theorem emitRd_rxReg (idx : BitVec 4) (s : State) : (emitRd idx s).rxReg = s.rxReg := rfl
@[simp] theorem emitRd_staleTx (idx : BitVec 4) (s : State) : (emitRd idx s).staleTx = s.staleTx := rfl
@[simp] theorem emitRd_overrun (idx : BitVec 4) (s : State) : (emitRd idx s).overrun = s.overrun := rfl
@[simp] theorem emitRd_wcol (idx : BitVec 4) (s : State) : (emitRd idx s).wcol = s.wcol := rfl
@[simp] theorem emitRd_edgeLost (idx : BitVec 4) (s : State) : (emitRd idx s).edgeLost = s.edgeLost := rfl
@[simp] theorem emitRd_err (idx : BitVec 4) (s : State) : (emitRd idx s).err = s.err := rfl
@[simp] theorem emitRd_misoTrace (idx : BitVec 4) (s : State) : (emitRd idx s).misoTrace = s.misoTrace := rfl
@[simp] theorem emitRd_consumeTrace (idx : BitVec 4) (s : State) : (emitRd idx s).consumeTrace = s.consumeTrace := rfl
@[simp] theorem emitRd_rdTrace (idx : BitVec 4) (s : State) : (emitRd idx s).rdTrace = s.rdTrace ++ [⟨idx, regRead idx s⟩] := rfl
@[simp] theorem emitRd_produceTrace (idx : BitVec 4) (s : State) : (emitRd idx s).produceTrace = s.produceTrace := rfl
@[simp] theorem emitRd_labels (idx : BitVec 4) (s : State) : (emitRd idx s).labels = s.labels := rfl
@[simp] theorem emitRd_given (idx : BitVec 4) (s : State) : (emitRd idx s).given = s.given := rfl
@[simp] theorem emitRd_drawNo (idx : BitVec 4) (s : State) : (emitRd idx s).drawNo = s.drawNo := rfl

@[simp] theorem zeroLive_par (s : State) : (zeroLive s).par = s.par := rfl
@[simp] theorem zeroLive_active (s : State) : (zeroLive s).active = s.active := rfl
@[simp] theorem zeroLive_len (s : State) : (zeroLive s).len = s.len := rfl
@[simp] theorem zeroLive_buf (s : State) : (zeroLive s).buf = s.buf.zero s.len.toNat := rfl
@[simp] theorem zeroLive_rc (s : State) : (zeroLive s).rc = s.rc := rfl
@[simp] theorem zeroLive_sc (s : State) : (zeroLive s).sc = s.sc := rfl
@[simp] theorem zeroLive_prd (s : State) : (zeroLive s).prd = s.prd := rfl
@[simp] theorem zeroLive_cns (s : State) : (zeroLive s).cns = s.cns := rfl
@[simp] theorem zeroLive_pin (s : State) : (zeroLive s).pin = s.pin := rfl
@[simp] theorem zeroLive_selAtt (s : State) : (zeroLive s).selAtt = s.selAtt := rfl
@[simp] theorem zeroLive_edge (s : State) : (zeroLive s).edge = s.edge := rfl
@[simp] theorem zeroLive_ssIn (s : State) : (zeroLive s).ssIn = s.ssIn := rfl
@[simp] theorem zeroLive_ssPend (s : State) : (zeroLive s).ssPend = s.ssPend := rfl
@[simp] theorem zeroLive_tcPend (s : State) : (zeroLive s).tcPend = s.tcPend := rfl
@[simp] theorem zeroLive_sr (s : State) : (zeroLive s).sr = s.sr := rfl
@[simp] theorem zeroLive_bitCnt (s : State) : (zeroLive s).bitCnt = s.bitCnt := rfl
@[simp] theorem zeroLive_txReg (s : State) : (zeroLive s).txReg = s.txReg := rfl
@[simp] theorem zeroLive_txValid (s : State) : (zeroLive s).txValid = s.txValid := rfl
@[simp] theorem zeroLive_rxReg (s : State) : (zeroLive s).rxReg = s.rxReg := rfl
@[simp] theorem zeroLive_staleTx (s : State) : (zeroLive s).staleTx = s.staleTx := rfl
@[simp] theorem zeroLive_overrun (s : State) : (zeroLive s).overrun = s.overrun := rfl
@[simp] theorem zeroLive_wcol (s : State) : (zeroLive s).wcol = s.wcol := rfl
@[simp] theorem zeroLive_edgeLost (s : State) : (zeroLive s).edgeLost = s.edgeLost := rfl
@[simp] theorem zeroLive_err (s : State) : (zeroLive s).err = s.err := rfl
@[simp] theorem zeroLive_misoTrace (s : State) : (zeroLive s).misoTrace = s.misoTrace := rfl
@[simp] theorem zeroLive_consumeTrace (s : State) : (zeroLive s).consumeTrace = s.consumeTrace := rfl
@[simp] theorem zeroLive_rdTrace (s : State) : (zeroLive s).rdTrace = s.rdTrace := rfl
@[simp] theorem zeroLive_produceTrace (s : State) : (zeroLive s).produceTrace = s.produceTrace := rfl
@[simp] theorem zeroLive_labels (s : State) : (zeroLive s).labels = s.labels := rfl
@[simp] theorem zeroLive_given (s : State) : (zeroLive s).given = s.given := rfl
@[simp] theorem zeroLive_drawNo (s : State) : (zeroLive s).drawNo = s.drawNo := rfl

@[simp] theorem produce_par (s : State) : (produce s).par = s.par := rfl
@[simp] theorem produce_active (s : State) : (produce s).active = s.active := rfl
@[simp] theorem produce_len (s : State) : (produce s).len = s.len := rfl
@[simp] theorem produce_buf (s : State) : (produce s).buf = s.buf.fill s.len.toNat (producedByte s) := rfl
@[simp] theorem produce_rc (s : State) : (produce s).rc = s.rc := rfl
@[simp] theorem produce_sc (s : State) : (produce s).sc = s.sc := rfl
@[simp] theorem produce_prd (s : State) : (produce s).prd = s.prd := rfl
@[simp] theorem produce_cns (s : State) : (produce s).cns = s.cns := rfl
@[simp] theorem produce_pin (s : State) : (produce s).pin = s.pin := rfl
@[simp] theorem produce_selAtt (s : State) : (produce s).selAtt = s.selAtt := rfl
@[simp] theorem produce_edge (s : State) : (produce s).edge = s.edge := rfl
@[simp] theorem produce_ssIn (s : State) : (produce s).ssIn = s.ssIn := rfl
@[simp] theorem produce_ssPend (s : State) : (produce s).ssPend = s.ssPend := rfl
@[simp] theorem produce_tcPend (s : State) : (produce s).tcPend = s.tcPend := rfl
@[simp] theorem produce_sr (s : State) : (produce s).sr = s.sr := rfl
@[simp] theorem produce_bitCnt (s : State) : (produce s).bitCnt = s.bitCnt := rfl
@[simp] theorem produce_txReg (s : State) : (produce s).txReg = s.txReg := rfl
@[simp] theorem produce_txValid (s : State) : (produce s).txValid = s.txValid := rfl
@[simp] theorem produce_rxReg (s : State) : (produce s).rxReg = s.rxReg := rfl
@[simp] theorem produce_staleTx (s : State) : (produce s).staleTx = s.staleTx := rfl
@[simp] theorem produce_overrun (s : State) : (produce s).overrun = s.overrun := rfl
@[simp] theorem produce_wcol (s : State) : (produce s).wcol = s.wcol := rfl
@[simp] theorem produce_edgeLost (s : State) : (produce s).edgeLost = s.edgeLost := rfl
@[simp] theorem produce_err (s : State) : (produce s).err = s.err := rfl
@[simp] theorem produce_misoTrace (s : State) : (produce s).misoTrace = s.misoTrace := rfl
@[simp] theorem produce_consumeTrace (s : State) : (produce s).consumeTrace = s.consumeTrace := rfl
@[simp] theorem produce_rdTrace (s : State) : (produce s).rdTrace = s.rdTrace := rfl
@[simp] theorem produce_produceTrace (s : State) : (produce s).produceTrace = s.produceTrace ++ [liveBytes s] := rfl
@[simp] theorem produce_labels (s : State) : (produce s).labels = s.labels := rfl
@[simp] theorem produce_given (s : State) : (produce s).given = s.given := rfl
@[simp] theorem produce_drawNo (s : State) : (produce s).drawNo = s.drawNo := rfl

@[simp] theorem resetCursors_par (s : State) : (resetCursors s).par = s.par := rfl
@[simp] theorem resetCursors_active (s : State) : (resetCursors s).active = s.active := rfl
@[simp] theorem resetCursors_len (s : State) : (resetCursors s).len = s.len := rfl
@[simp] theorem resetCursors_buf (s : State) : (resetCursors s).buf = s.buf := rfl
@[simp] theorem resetCursors_rc (s : State) : (resetCursors s).rc = 0#16 := rfl
@[simp] theorem resetCursors_sc (s : State) : (resetCursors s).sc = 0#16 := rfl
@[simp] theorem resetCursors_prd (s : State) : (resetCursors s).prd = s.prd := rfl
@[simp] theorem resetCursors_cns (s : State) : (resetCursors s).cns = s.cns := rfl
@[simp] theorem resetCursors_pin (s : State) : (resetCursors s).pin = s.pin := rfl
@[simp] theorem resetCursors_selAtt (s : State) : (resetCursors s).selAtt = s.selAtt := rfl
@[simp] theorem resetCursors_edge (s : State) : (resetCursors s).edge = s.edge := rfl
@[simp] theorem resetCursors_ssIn (s : State) : (resetCursors s).ssIn = s.ssIn := rfl
@[simp] theorem resetCursors_ssPend (s : State) : (resetCursors s).ssPend = s.ssPend := rfl
@[simp] theorem resetCursors_tcPend (s : State) : (resetCursors s).tcPend = s.tcPend := rfl
@[simp] theorem resetCursors_sr (s : State) : (resetCursors s).sr = s.sr := rfl
@[simp] theorem resetCursors_bitCnt (s : State) : (resetCursors s).bitCnt = s.bitCnt := rfl
@[simp] theorem resetCursors_txReg (s : State) : (resetCursors s).txReg = s.txReg := rfl
@[simp] theorem resetCursors_txValid (s : State) : (resetCursors s).txValid = s.txValid := rfl
@[simp] theorem resetCursors_rxReg (s : State) : (resetCursors s).rxReg = s.rxReg := rfl
@[simp] theorem resetCursors_staleTx (s : State) : (resetCursors s).staleTx = s.staleTx := rfl
@[simp] theorem resetCursors_overrun (s : State) : (resetCursors s).overrun = s.overrun := rfl
@[simp] theorem resetCursors_wcol (s : State) : (resetCursors s).wcol = s.wcol := rfl
@[simp] theorem resetCursors_edgeLost (s : State) : (resetCursors s).edgeLost = s.edgeLost := rfl
@[simp] theorem resetCursors_err (s : State) : (resetCursors s).err = s.err := rfl
@[simp] theorem resetCursors_misoTrace (s : State) : (resetCursors s).misoTrace = s.misoTrace := rfl
@[simp] theorem resetCursors_consumeTrace (s : State) : (resetCursors s).consumeTrace = s.consumeTrace := rfl
@[simp] theorem resetCursors_rdTrace (s : State) : (resetCursors s).rdTrace = s.rdTrace := rfl
@[simp] theorem resetCursors_produceTrace (s : State) : (resetCursors s).produceTrace = s.produceTrace := rfl
@[simp] theorem resetCursors_labels (s : State) : (resetCursors s).labels = s.labels := rfl
@[simp] theorem resetCursors_given (s : State) : (resetCursors s).given = s.given := rfl
@[simp] theorem resetCursors_drawNo (s : State) : (resetCursors s).drawNo = s.drawNo := rfl

@[simp] theorem advanceRc_par (s : State) : (advanceRc s).par = s.par := rfl
@[simp] theorem advanceRc_active (s : State) : (advanceRc s).active = s.active := rfl
@[simp] theorem advanceRc_len (s : State) : (advanceRc s).len = s.len := rfl
@[simp] theorem advanceRc_buf (s : State) : (advanceRc s).buf = s.buf := rfl
@[simp] theorem advanceRc_rc (s : State) : (advanceRc s).rc = nextCursor s.rc s.len := rfl
@[simp] theorem advanceRc_sc (s : State) : (advanceRc s).sc = s.sc := rfl
@[simp] theorem advanceRc_prd (s : State) : (advanceRc s).prd = s.prd := rfl
@[simp] theorem advanceRc_cns (s : State) : (advanceRc s).cns = s.cns := rfl
@[simp] theorem advanceRc_pin (s : State) : (advanceRc s).pin = s.pin := rfl
@[simp] theorem advanceRc_selAtt (s : State) : (advanceRc s).selAtt = s.selAtt := rfl
@[simp] theorem advanceRc_edge (s : State) : (advanceRc s).edge = s.edge := rfl
@[simp] theorem advanceRc_ssIn (s : State) : (advanceRc s).ssIn = s.ssIn := rfl
@[simp] theorem advanceRc_ssPend (s : State) : (advanceRc s).ssPend = s.ssPend := rfl
@[simp] theorem advanceRc_tcPend (s : State) : (advanceRc s).tcPend = s.tcPend := rfl
@[simp] theorem advanceRc_sr (s : State) : (advanceRc s).sr = s.sr := rfl
@[simp] theorem advanceRc_bitCnt (s : State) : (advanceRc s).bitCnt = s.bitCnt := rfl
@[simp] theorem advanceRc_txReg (s : State) : (advanceRc s).txReg = s.txReg := rfl
@[simp] theorem advanceRc_txValid (s : State) : (advanceRc s).txValid = s.txValid := rfl
@[simp] theorem advanceRc_rxReg (s : State) : (advanceRc s).rxReg = s.rxReg := rfl
@[simp] theorem advanceRc_staleTx (s : State) : (advanceRc s).staleTx = s.staleTx := rfl
@[simp] theorem advanceRc_overrun (s : State) : (advanceRc s).overrun = s.overrun := rfl
@[simp] theorem advanceRc_wcol (s : State) : (advanceRc s).wcol = s.wcol := rfl
@[simp] theorem advanceRc_edgeLost (s : State) : (advanceRc s).edgeLost = s.edgeLost := rfl
@[simp] theorem advanceRc_err (s : State) : (advanceRc s).err = s.err := rfl
@[simp] theorem advanceRc_misoTrace (s : State) : (advanceRc s).misoTrace = s.misoTrace := rfl
@[simp] theorem advanceRc_consumeTrace (s : State) : (advanceRc s).consumeTrace = s.consumeTrace := rfl
@[simp] theorem advanceRc_rdTrace (s : State) : (advanceRc s).rdTrace = s.rdTrace := rfl
@[simp] theorem advanceRc_produceTrace (s : State) : (advanceRc s).produceTrace = s.produceTrace := rfl
@[simp] theorem advanceRc_labels (s : State) : (advanceRc s).labels = s.labels := rfl
@[simp] theorem advanceRc_given (s : State) : (advanceRc s).given = s.given := rfl
@[simp] theorem advanceRc_drawNo (s : State) : (advanceRc s).drawNo = s.drawNo := rfl

@[simp] theorem advanceSc_par (s : State) : (advanceSc s).par = s.par := rfl
@[simp] theorem advanceSc_active (s : State) : (advanceSc s).active = s.active := rfl
@[simp] theorem advanceSc_len (s : State) : (advanceSc s).len = s.len := rfl
@[simp] theorem advanceSc_buf (s : State) : (advanceSc s).buf = s.buf := rfl
@[simp] theorem advanceSc_rc (s : State) : (advanceSc s).rc = s.rc := rfl
@[simp] theorem advanceSc_sc (s : State) : (advanceSc s).sc = nextCursor s.sc s.len := rfl
@[simp] theorem advanceSc_prd (s : State) : (advanceSc s).prd = s.prd := rfl
@[simp] theorem advanceSc_cns (s : State) : (advanceSc s).cns = s.cns := rfl
@[simp] theorem advanceSc_pin (s : State) : (advanceSc s).pin = s.pin := rfl
@[simp] theorem advanceSc_selAtt (s : State) : (advanceSc s).selAtt = s.selAtt := rfl
@[simp] theorem advanceSc_edge (s : State) : (advanceSc s).edge = s.edge := rfl
@[simp] theorem advanceSc_ssIn (s : State) : (advanceSc s).ssIn = s.ssIn := rfl
@[simp] theorem advanceSc_ssPend (s : State) : (advanceSc s).ssPend = s.ssPend := rfl
@[simp] theorem advanceSc_tcPend (s : State) : (advanceSc s).tcPend = s.tcPend := rfl
@[simp] theorem advanceSc_sr (s : State) : (advanceSc s).sr = s.sr := rfl
@[simp] theorem advanceSc_bitCnt (s : State) : (advanceSc s).bitCnt = s.bitCnt := rfl
@[simp] theorem advanceSc_txReg (s : State) : (advanceSc s).txReg = s.txReg := rfl
@[simp] theorem advanceSc_txValid (s : State) : (advanceSc s).txValid = s.txValid := rfl
@[simp] theorem advanceSc_rxReg (s : State) : (advanceSc s).rxReg = s.rxReg := rfl
@[simp] theorem advanceSc_staleTx (s : State) : (advanceSc s).staleTx = s.staleTx := rfl
@[simp] theorem advanceSc_overrun (s : State) : (advanceSc s).overrun = s.overrun := rfl
@[simp] theorem advanceSc_wcol (s : State) : (advanceSc s).wcol = s.wcol := rfl
@[simp] theorem advanceSc_edgeLost (s : State) : (advanceSc s).edgeLost = s.edgeLost := rfl
@[simp] theorem advanceSc_err (s : State) : (advanceSc s).err = s.err := rfl
@[simp] theorem advanceSc_misoTrace (s : State) : (advanceSc s).misoTrace = s.misoTrace := rfl
@[simp] theorem advanceSc_consumeTrace (s : State) : (advanceSc s).consumeTrace = s.consumeTrace := rfl
@[simp] theorem advanceSc_rdTrace (s : State) : (advanceSc s).rdTrace = s.rdTrace := rfl
@[simp] theorem advanceSc_produceTrace (s : State) : (advanceSc s).produceTrace = s.produceTrace := rfl
@[simp] theorem advanceSc_labels (s : State) : (advanceSc s).labels = s.labels := rfl
@[simp] theorem advanceSc_given (s : State) : (advanceSc s).given = s.given := rfl
@[simp] theorem advanceSc_drawNo (s : State) : (advanceSc s).drawNo = s.drawNo := rfl

@[simp] theorem loadTx_par (v : Byte) (s : State) : (loadTx v s).par = s.par := rfl
@[simp] theorem loadTx_active (v : Byte) (s : State) : (loadTx v s).active = s.active := rfl
@[simp] theorem loadTx_len (v : Byte) (s : State) : (loadTx v s).len = s.len := rfl
@[simp] theorem loadTx_buf (v : Byte) (s : State) : (loadTx v s).buf = s.buf := rfl
@[simp] theorem loadTx_rc (v : Byte) (s : State) : (loadTx v s).rc = s.rc := rfl
@[simp] theorem loadTx_sc (v : Byte) (s : State) : (loadTx v s).sc = s.sc := rfl
@[simp] theorem loadTx_prd (v : Byte) (s : State) : (loadTx v s).prd = s.prd := rfl
@[simp] theorem loadTx_cns (v : Byte) (s : State) : (loadTx v s).cns = s.cns := rfl
@[simp] theorem loadTx_pin (v : Byte) (s : State) : (loadTx v s).pin = s.pin := rfl
@[simp] theorem loadTx_selAtt (v : Byte) (s : State) : (loadTx v s).selAtt = s.selAtt := rfl
@[simp] theorem loadTx_edge (v : Byte) (s : State) : (loadTx v s).edge = s.edge := rfl
@[simp] theorem loadTx_ssIn (v : Byte) (s : State) : (loadTx v s).ssIn = s.ssIn := rfl
@[simp] theorem loadTx_ssPend (v : Byte) (s : State) : (loadTx v s).ssPend = s.ssPend := rfl
@[simp] theorem loadTx_tcPend (v : Byte) (s : State) : (loadTx v s).tcPend = s.tcPend := rfl
@[simp] theorem loadTx_sr (v : Byte) (s : State) : (loadTx v s).sr = s.sr := rfl
@[simp] theorem loadTx_bitCnt (v : Byte) (s : State) : (loadTx v s).bitCnt = s.bitCnt := rfl
@[simp] theorem loadTx_txReg (v : Byte) (s : State) : (loadTx v s).txReg = v := rfl
@[simp] theorem loadTx_txValid (v : Byte) (s : State) : (loadTx v s).txValid = true := rfl
@[simp] theorem loadTx_rxReg (v : Byte) (s : State) : (loadTx v s).rxReg = s.rxReg := rfl
@[simp] theorem loadTx_staleTx (v : Byte) (s : State) : (loadTx v s).staleTx = s.staleTx := rfl
@[simp] theorem loadTx_overrun (v : Byte) (s : State) : (loadTx v s).overrun = s.overrun := rfl
@[simp] theorem loadTx_wcol (v : Byte) (s : State) : (loadTx v s).wcol = s.wcol := rfl
@[simp] theorem loadTx_edgeLost (v : Byte) (s : State) : (loadTx v s).edgeLost = s.edgeLost := rfl
@[simp] theorem loadTx_err (v : Byte) (s : State) : (loadTx v s).err = s.err := rfl
@[simp] theorem loadTx_misoTrace (v : Byte) (s : State) : (loadTx v s).misoTrace = s.misoTrace := rfl
@[simp] theorem loadTx_consumeTrace (v : Byte) (s : State) : (loadTx v s).consumeTrace = s.consumeTrace := rfl
@[simp] theorem loadTx_rdTrace (v : Byte) (s : State) : (loadTx v s).rdTrace = s.rdTrace := rfl
@[simp] theorem loadTx_produceTrace (v : Byte) (s : State) : (loadTx v s).produceTrace = s.produceTrace := rfl
@[simp] theorem loadTx_labels (v : Byte) (s : State) : (loadTx v s).labels = s.labels := rfl
@[simp] theorem loadTx_given (v : Byte) (s : State) : (loadTx v s).given = s.given := rfl
@[simp] theorem loadTx_drawNo (v : Byte) (s : State) : (loadTx v s).drawNo = s.drawNo := rfl

@[simp] theorem dropTx_par (s : State) : (dropTx s).par = s.par := rfl
@[simp] theorem dropTx_active (s : State) : (dropTx s).active = s.active := rfl
@[simp] theorem dropTx_len (s : State) : (dropTx s).len = s.len := rfl
@[simp] theorem dropTx_buf (s : State) : (dropTx s).buf = s.buf := rfl
@[simp] theorem dropTx_rc (s : State) : (dropTx s).rc = s.rc := rfl
@[simp] theorem dropTx_sc (s : State) : (dropTx s).sc = s.sc := rfl
@[simp] theorem dropTx_prd (s : State) : (dropTx s).prd = s.prd := rfl
@[simp] theorem dropTx_cns (s : State) : (dropTx s).cns = s.cns := rfl
@[simp] theorem dropTx_pin (s : State) : (dropTx s).pin = s.pin := rfl
@[simp] theorem dropTx_selAtt (s : State) : (dropTx s).selAtt = s.selAtt := rfl
@[simp] theorem dropTx_edge (s : State) : (dropTx s).edge = s.edge := rfl
@[simp] theorem dropTx_ssIn (s : State) : (dropTx s).ssIn = s.ssIn := rfl
@[simp] theorem dropTx_ssPend (s : State) : (dropTx s).ssPend = s.ssPend := rfl
@[simp] theorem dropTx_tcPend (s : State) : (dropTx s).tcPend = s.tcPend := rfl
@[simp] theorem dropTx_sr (s : State) : (dropTx s).sr = s.sr := rfl
@[simp] theorem dropTx_bitCnt (s : State) : (dropTx s).bitCnt = s.bitCnt := rfl
@[simp] theorem dropTx_txReg (s : State) : (dropTx s).txReg = s.txReg := rfl
@[simp] theorem dropTx_txValid (s : State) : (dropTx s).txValid = s.txValid := rfl
@[simp] theorem dropTx_rxReg (s : State) : (dropTx s).rxReg = s.rxReg := rfl
@[simp] theorem dropTx_staleTx (s : State) : (dropTx s).staleTx = s.staleTx := rfl
@[simp] theorem dropTx_overrun (s : State) : (dropTx s).overrun = s.overrun := rfl
@[simp] theorem dropTx_wcol (s : State) : (dropTx s).wcol = true := rfl
@[simp] theorem dropTx_edgeLost (s : State) : (dropTx s).edgeLost = s.edgeLost := rfl
@[simp] theorem dropTx_err (s : State) : (dropTx s).err = s.err := rfl
@[simp] theorem dropTx_misoTrace (s : State) : (dropTx s).misoTrace = s.misoTrace := rfl
@[simp] theorem dropTx_consumeTrace (s : State) : (dropTx s).consumeTrace = s.consumeTrace := rfl
@[simp] theorem dropTx_rdTrace (s : State) : (dropTx s).rdTrace = s.rdTrace := rfl
@[simp] theorem dropTx_produceTrace (s : State) : (dropTx s).produceTrace = s.produceTrace := rfl
@[simp] theorem dropTx_labels (s : State) : (dropTx s).labels = s.labels := rfl
@[simp] theorem dropTx_given (s : State) : (dropTx s).given = s.given := rfl
@[simp] theorem dropTx_drawNo (s : State) : (dropTx s).drawNo = s.drawNo := rfl

@[simp] theorem beginLabel_par (g : FreeInputs) (l : List Scheduled) (s : State) : (beginLabel g l s).par = s.par := rfl
@[simp] theorem beginLabel_active (g : FreeInputs) (l : List Scheduled) (s : State) : (beginLabel g l s).active = s.active := rfl
@[simp] theorem beginLabel_len (g : FreeInputs) (l : List Scheduled) (s : State) : (beginLabel g l s).len = s.len := rfl
@[simp] theorem beginLabel_buf (g : FreeInputs) (l : List Scheduled) (s : State) : (beginLabel g l s).buf = s.buf := rfl
@[simp] theorem beginLabel_rc (g : FreeInputs) (l : List Scheduled) (s : State) : (beginLabel g l s).rc = s.rc := rfl
@[simp] theorem beginLabel_sc (g : FreeInputs) (l : List Scheduled) (s : State) : (beginLabel g l s).sc = s.sc := rfl
@[simp] theorem beginLabel_prd (g : FreeInputs) (l : List Scheduled) (s : State) : (beginLabel g l s).prd = s.prd := rfl
@[simp] theorem beginLabel_cns (g : FreeInputs) (l : List Scheduled) (s : State) : (beginLabel g l s).cns = s.cns := rfl
@[simp] theorem beginLabel_pin (g : FreeInputs) (l : List Scheduled) (s : State) : (beginLabel g l s).pin = s.pin := rfl
@[simp] theorem beginLabel_selAtt (g : FreeInputs) (l : List Scheduled) (s : State) : (beginLabel g l s).selAtt = s.selAtt := rfl
@[simp] theorem beginLabel_edge (g : FreeInputs) (l : List Scheduled) (s : State) : (beginLabel g l s).edge = s.edge := rfl
@[simp] theorem beginLabel_ssIn (g : FreeInputs) (l : List Scheduled) (s : State) : (beginLabel g l s).ssIn = s.ssIn := rfl
@[simp] theorem beginLabel_ssPend (g : FreeInputs) (l : List Scheduled) (s : State) : (beginLabel g l s).ssPend = s.ssPend := rfl
@[simp] theorem beginLabel_tcPend (g : FreeInputs) (l : List Scheduled) (s : State) : (beginLabel g l s).tcPend = s.tcPend := rfl
@[simp] theorem beginLabel_sr (g : FreeInputs) (l : List Scheduled) (s : State) : (beginLabel g l s).sr = s.sr := rfl
@[simp] theorem beginLabel_bitCnt (g : FreeInputs) (l : List Scheduled) (s : State) : (beginLabel g l s).bitCnt = s.bitCnt := rfl
@[simp] theorem beginLabel_txReg (g : FreeInputs) (l : List Scheduled) (s : State) : (beginLabel g l s).txReg = s.txReg := rfl
@[simp] theorem beginLabel_txValid (g : FreeInputs) (l : List Scheduled) (s : State) : (beginLabel g l s).txValid = s.txValid := rfl
@[simp] theorem beginLabel_rxReg (g : FreeInputs) (l : List Scheduled) (s : State) : (beginLabel g l s).rxReg = s.rxReg := rfl
@[simp] theorem beginLabel_staleTx (g : FreeInputs) (l : List Scheduled) (s : State) : (beginLabel g l s).staleTx = s.staleTx := rfl
@[simp] theorem beginLabel_overrun (g : FreeInputs) (l : List Scheduled) (s : State) : (beginLabel g l s).overrun = s.overrun := rfl
@[simp] theorem beginLabel_wcol (g : FreeInputs) (l : List Scheduled) (s : State) : (beginLabel g l s).wcol = s.wcol := rfl
@[simp] theorem beginLabel_edgeLost (g : FreeInputs) (l : List Scheduled) (s : State) : (beginLabel g l s).edgeLost = s.edgeLost := rfl
@[simp] theorem beginLabel_err (g : FreeInputs) (l : List Scheduled) (s : State) : (beginLabel g l s).err = s.err := rfl
@[simp] theorem beginLabel_misoTrace (g : FreeInputs) (l : List Scheduled) (s : State) : (beginLabel g l s).misoTrace = s.misoTrace := rfl
@[simp] theorem beginLabel_consumeTrace (g : FreeInputs) (l : List Scheduled) (s : State) : (beginLabel g l s).consumeTrace = s.consumeTrace := rfl
@[simp] theorem beginLabel_rdTrace (g : FreeInputs) (l : List Scheduled) (s : State) : (beginLabel g l s).rdTrace = s.rdTrace := rfl
@[simp] theorem beginLabel_produceTrace (g : FreeInputs) (l : List Scheduled) (s : State) : (beginLabel g l s).produceTrace = s.produceTrace := rfl
@[simp] theorem beginLabel_labels (g : FreeInputs) (l : List Scheduled) (s : State) : (beginLabel g l s).labels = l := rfl
@[simp] theorem beginLabel_given (g : FreeInputs) (l : List Scheduled) (s : State) : (beginLabel g l s).given = g := rfl
@[simp] theorem beginLabel_drawNo (g : FreeInputs) (l : List Scheduled) (s : State) : (beginLabel g l s).drawNo = s.drawNo + 1 := rfl

end Sys2Proof.Machine
end

