-- ==== Sys2Proof/Laws/Ops.lean ====
section
/-! SUPPORT. One lemma per shared operation that says once everything it can do. -/

namespace Sys2Proof.Machine

@[simp] theorem andThen_next (s : State) (k : State → Result) : andThen (.next s) k = k s := rfl
@[simp] theorem andThen_fault (f : Fault) (k : State → Result) : andThen (.fault f) k = .fault f := rfl
@[simp] theorem andThen_refused (r : Refusal) (k : State → Result) : andThen (.refused r) k = .refused r := rfl

theorem andThen_eq_next {o : Result} {k : State → Result} {t : State} (h : andThen o k = .next t) :
    ∃ s, o = .next s ∧ k s = .next t := by
  cases o with
  | next s => exact ⟨s, rfl, h⟩
  | fault f => simp [andThen] at h
  | refused r => simp [andThen] at h

theorem memWrite_live {i : Nat} {s : State} (v : Byte) (h : i < s.len.toNat) :
    memWrite i v s = .next { s with buf := s.buf.write i v } := by
  simp [memWrite, h]

theorem memWrite_next {i : Nat} {v : Byte} {s t : State} (h : memWrite i v s = .next t) :
    i < s.len.toNat ∧ t = { s with buf := s.buf.write i v } := by
  unfold memWrite at h
  split at h
  · injection h with h; exact ⟨‹_›, h.symm⟩
  · cases h

/-- Stage touches TX_REG, TX_VALID and WCOL, and its choice rests on BITCNT and the free input alone. -/
theorem stage_eq (v : Byte) (s : State) :
    stage v s = { s with
      txReg := if s.bitCnt = 0#3 ∨ stageChoice s = .take then v else s.txReg
      txValid := if s.bitCnt = 0#3 ∨ stageChoice s = .take then true else s.txValid
      wcol := if s.bitCnt = 0#3 ∨ stageChoice s = .take then s.wcol else true } := by
  unfold stage
  by_cases h : s.bitCnt = 0#3
  · simp [h, loadTx]
  · cases hc : stageChoice s <;> simp [h, loadTx, dropTx]

@[simp] theorem stage_par (v : Byte) (s : State) : (stage v s).par = s.par := by rw [stage_eq]
@[simp] theorem stage_active (v : Byte) (s : State) : (stage v s).active = s.active := by rw [stage_eq]
@[simp] theorem stage_len (v : Byte) (s : State) : (stage v s).len = s.len := by rw [stage_eq]
@[simp] theorem stage_buf (v : Byte) (s : State) : (stage v s).buf = s.buf := by rw [stage_eq]
@[simp] theorem stage_rc (v : Byte) (s : State) : (stage v s).rc = s.rc := by rw [stage_eq]
@[simp] theorem stage_sc (v : Byte) (s : State) : (stage v s).sc = s.sc := by rw [stage_eq]
@[simp] theorem stage_prd (v : Byte) (s : State) : (stage v s).prd = s.prd := by rw [stage_eq]
@[simp] theorem stage_cns (v : Byte) (s : State) : (stage v s).cns = s.cns := by rw [stage_eq]
@[simp] theorem stage_pin (v : Byte) (s : State) : (stage v s).pin = s.pin := by rw [stage_eq]
@[simp] theorem stage_selAtt (v : Byte) (s : State) : (stage v s).selAtt = s.selAtt := by rw [stage_eq]
@[simp] theorem stage_edge (v : Byte) (s : State) : (stage v s).edge = s.edge := by rw [stage_eq]
@[simp] theorem stage_ssIn (v : Byte) (s : State) : (stage v s).ssIn = s.ssIn := by rw [stage_eq]
@[simp] theorem stage_ssPend (v : Byte) (s : State) : (stage v s).ssPend = s.ssPend := by rw [stage_eq]
@[simp] theorem stage_tcPend (v : Byte) (s : State) : (stage v s).tcPend = s.tcPend := by rw [stage_eq]
@[simp] theorem stage_sr (v : Byte) (s : State) : (stage v s).sr = s.sr := by rw [stage_eq]
@[simp] theorem stage_bitCnt (v : Byte) (s : State) : (stage v s).bitCnt = s.bitCnt := by rw [stage_eq]
@[simp] theorem stage_rxReg (v : Byte) (s : State) : (stage v s).rxReg = s.rxReg := by rw [stage_eq]
@[simp] theorem stage_staleTx (v : Byte) (s : State) : (stage v s).staleTx = s.staleTx := by rw [stage_eq]
@[simp] theorem stage_overrun (v : Byte) (s : State) : (stage v s).overrun = s.overrun := by rw [stage_eq]
@[simp] theorem stage_edgeLost (v : Byte) (s : State) : (stage v s).edgeLost = s.edgeLost := by rw [stage_eq]
@[simp] theorem stage_err (v : Byte) (s : State) : (stage v s).err = s.err := by rw [stage_eq]
@[simp] theorem stage_misoTrace (v : Byte) (s : State) : (stage v s).misoTrace = s.misoTrace := by rw [stage_eq]
@[simp] theorem stage_consumeTrace (v : Byte) (s : State) : (stage v s).consumeTrace = s.consumeTrace := by rw [stage_eq]
@[simp] theorem stage_rdTrace (v : Byte) (s : State) : (stage v s).rdTrace = s.rdTrace := by rw [stage_eq]
@[simp] theorem stage_produceTrace (v : Byte) (s : State) : (stage v s).produceTrace = s.produceTrace := by rw [stage_eq]
@[simp] theorem stage_labels (v : Byte) (s : State) : (stage v s).labels = s.labels := by rw [stage_eq]
@[simp] theorem stage_given (v : Byte) (s : State) : (stage v s).given = s.given := by rw [stage_eq]
@[simp] theorem stage_drawNo (v : Byte) (s : State) : (stage v s).drawNo = s.drawNo := by rw [stage_eq]

/-- What `stageNext` answers. -/
theorem stageNext_live {s : State} (h : s.sc.toNat < s.len.toNat) :
    stageNext s = .next (advanceSc (stage (s.buf.read s.sc.toNat) s)) := by
  simp [stageNext, memRead, h]

theorem stageNext_next {s t : State} (h : stageNext s = .next t) :
    s.sc.toNat < s.len.toNat ∧ t = advanceSc (stage (s.buf.read s.sc.toNat) s) := by
  by_cases hl : s.sc.toNat < s.len.toNat
  · rw [stageNext_live hl] at h; injection h with h; exact ⟨hl, h.symm⟩
  · simp [stageNext, memRead, hl] at h

/-- The buffer SelEntry stages from: the host's answer, or what was there. -/
def selBuffer (s : State) : Memory :=
  if s.prd then s.buf.fill s.len.toNat (producedByte s) else s.buf

/-- The state SelEntry answers. -/
def selected (s : State) : State :=
  stage ((selBuffer s).read 0)
    { s with
      rc := 0#16
      sc := nextCursor 0#16 s.len
      buf := selBuffer s
      produceTrace := if s.prd then s.produceTrace ++ [liveBytes s] else s.produceTrace }

@[simp] theorem selected_par (s : State) : (selected s).par = s.par := by simp [selected]
@[simp] theorem selected_active (s : State) : (selected s).active = s.active := by simp [selected]
@[simp] theorem selected_len (s : State) : (selected s).len = s.len := by simp [selected]
@[simp] theorem selected_buf (s : State) : (selected s).buf = selBuffer s := by simp [selected]
@[simp] theorem selected_rc (s : State) : (selected s).rc = 0#16 := by simp [selected]
@[simp] theorem selected_sc (s : State) : (selected s).sc = nextCursor 0#16 s.len := by simp [selected]
@[simp] theorem selected_prd (s : State) : (selected s).prd = s.prd := by simp [selected]
@[simp] theorem selected_cns (s : State) : (selected s).cns = s.cns := by simp [selected]
@[simp] theorem selected_pin (s : State) : (selected s).pin = s.pin := by simp [selected]
@[simp] theorem selected_selAtt (s : State) : (selected s).selAtt = s.selAtt := by simp [selected]
@[simp] theorem selected_edge (s : State) : (selected s).edge = s.edge := by simp [selected]
@[simp] theorem selected_ssIn (s : State) : (selected s).ssIn = s.ssIn := by simp [selected]
@[simp] theorem selected_ssPend (s : State) : (selected s).ssPend = s.ssPend := by simp [selected]
@[simp] theorem selected_tcPend (s : State) : (selected s).tcPend = s.tcPend := by simp [selected]
@[simp] theorem selected_sr (s : State) : (selected s).sr = s.sr := by simp [selected]
@[simp] theorem selected_bitCnt (s : State) : (selected s).bitCnt = s.bitCnt := by simp [selected]
@[simp] theorem selected_rxReg (s : State) : (selected s).rxReg = s.rxReg := by simp [selected]
@[simp] theorem selected_staleTx (s : State) : (selected s).staleTx = s.staleTx := by simp [selected]
@[simp] theorem selected_overrun (s : State) : (selected s).overrun = s.overrun := by simp [selected]
@[simp] theorem selected_edgeLost (s : State) : (selected s).edgeLost = s.edgeLost := by simp [selected]
@[simp] theorem selected_err (s : State) : (selected s).err = s.err := by simp [selected]
@[simp] theorem selected_misoTrace (s : State) : (selected s).misoTrace = s.misoTrace := by simp [selected]
@[simp] theorem selected_consumeTrace (s : State) : (selected s).consumeTrace = s.consumeTrace := by simp [selected]
@[simp] theorem selected_rdTrace (s : State) : (selected s).rdTrace = s.rdTrace := by simp [selected]
@[simp] theorem selected_produceTrace (s : State) : (selected s).produceTrace = if s.prd then s.produceTrace ++ [liveBytes s] else s.produceTrace := by simp [selected]
@[simp] theorem selected_labels (s : State) : (selected s).labels = s.labels := by simp [selected]
@[simp] theorem selected_given (s : State) : (selected s).given = s.given := by simp [selected]
@[simp] theorem selected_drawNo (s : State) : (selected s).drawNo = s.drawNo := by simp [selected]

theorem producedByte_resetCursors (s : State) : producedByte (resetCursors s) = producedByte s := rfl

theorem liveBytes_resetCursors (s : State) : liveBytes (resetCursors s) = liveBytes s := rfl

theorem selEntry_live {s : State} (h : s.len ≠ 0#16) : selEntry s = .next (selected s) := by
  have hl : 0 < s.len.toNat := by
    rcases Nat.eq_zero_or_pos s.len.toNat with h0 | h0
    · exact absurd (BitVec.eq_of_toNat_eq (by simpa using h0)) h
    · exact h0
  cases hp : s.prd
  · simp only [selEntry, resetCursors_prd, hp, Bool.false_eq_true, if_false]
    rw [stageNext_live (by simpa using hl)]
    simp [selected, selBuffer, hp, stage_eq, advanceSc, resetCursors, stageChoice]
    exact ⟨rfl, rfl, rfl⟩
  · simp only [selEntry, resetCursors_prd, hp, if_true]
    rw [stageNext_live (by simpa using hl)]
    simp [selected, selBuffer, hp, stage_eq, advanceSc, resetCursors, produce, stageChoice, hl, producedByte, liveBytes]
    exact ⟨rfl, rfl, rfl, rfl⟩

theorem selEntry_next {s t : State} (h : selEntry s = .next t) : s.len ≠ 0#16 ∧ t = selected s := by
  by_cases hl : s.len = 0#16
  · unfold selEntry at h
    have := (stageNext_next h).1
    cases hp : s.prd <;> simp [hp, hl] at this
  · rw [selEntry_live hl] at h; injection h with h; exact ⟨hl, h.symm⟩

/-- The state DeselEntry answers. -/
theorem deselEntry_eq (s : State) :
    deselEntry s = { s with
      buf := s.buf.zero s.len.toNat
      consumeTrace := if s.cns then s.consumeTrace ++ [liveBytes s] else s.consumeTrace } := by
  unfold deselEntry
  cases hc : s.cns <;> simp [zeroLive, emitConsume, hc]

@[simp] theorem deselEntry_par (s : State) : (deselEntry s).par = s.par := by rw [deselEntry_eq]
@[simp] theorem deselEntry_active (s : State) : (deselEntry s).active = s.active := by rw [deselEntry_eq]
@[simp] theorem deselEntry_len (s : State) : (deselEntry s).len = s.len := by rw [deselEntry_eq]
@[simp] theorem deselEntry_buf (s : State) : (deselEntry s).buf = s.buf.zero s.len.toNat := by rw [deselEntry_eq]
@[simp] theorem deselEntry_rc (s : State) : (deselEntry s).rc = s.rc := by rw [deselEntry_eq]
@[simp] theorem deselEntry_sc (s : State) : (deselEntry s).sc = s.sc := by rw [deselEntry_eq]
@[simp] theorem deselEntry_prd (s : State) : (deselEntry s).prd = s.prd := by rw [deselEntry_eq]
@[simp] theorem deselEntry_cns (s : State) : (deselEntry s).cns = s.cns := by rw [deselEntry_eq]
@[simp] theorem deselEntry_pin (s : State) : (deselEntry s).pin = s.pin := by rw [deselEntry_eq]
@[simp] theorem deselEntry_selAtt (s : State) : (deselEntry s).selAtt = s.selAtt := by rw [deselEntry_eq]
@[simp] theorem deselEntry_edge (s : State) : (deselEntry s).edge = s.edge := by rw [deselEntry_eq]
@[simp] theorem deselEntry_ssIn (s : State) : (deselEntry s).ssIn = s.ssIn := by rw [deselEntry_eq]
@[simp] theorem deselEntry_ssPend (s : State) : (deselEntry s).ssPend = s.ssPend := by rw [deselEntry_eq]
@[simp] theorem deselEntry_tcPend (s : State) : (deselEntry s).tcPend = s.tcPend := by rw [deselEntry_eq]
@[simp] theorem deselEntry_sr (s : State) : (deselEntry s).sr = s.sr := by rw [deselEntry_eq]
@[simp] theorem deselEntry_bitCnt (s : State) : (deselEntry s).bitCnt = s.bitCnt := by rw [deselEntry_eq]
@[simp] theorem deselEntry_txReg (s : State) : (deselEntry s).txReg = s.txReg := by rw [deselEntry_eq]
@[simp] theorem deselEntry_txValid (s : State) : (deselEntry s).txValid = s.txValid := by rw [deselEntry_eq]
@[simp] theorem deselEntry_rxReg (s : State) : (deselEntry s).rxReg = s.rxReg := by rw [deselEntry_eq]
@[simp] theorem deselEntry_staleTx (s : State) : (deselEntry s).staleTx = s.staleTx := by rw [deselEntry_eq]
@[simp] theorem deselEntry_overrun (s : State) : (deselEntry s).overrun = s.overrun := by rw [deselEntry_eq]
@[simp] theorem deselEntry_wcol (s : State) : (deselEntry s).wcol = s.wcol := by rw [deselEntry_eq]
@[simp] theorem deselEntry_edgeLost (s : State) : (deselEntry s).edgeLost = s.edgeLost := by rw [deselEntry_eq]
@[simp] theorem deselEntry_err (s : State) : (deselEntry s).err = s.err := by rw [deselEntry_eq]
@[simp] theorem deselEntry_misoTrace (s : State) : (deselEntry s).misoTrace = s.misoTrace := by rw [deselEntry_eq]
@[simp] theorem deselEntry_consumeTrace (s : State) : (deselEntry s).consumeTrace = if s.cns then s.consumeTrace ++ [liveBytes s] else s.consumeTrace := by rw [deselEntry_eq]
@[simp] theorem deselEntry_rdTrace (s : State) : (deselEntry s).rdTrace = s.rdTrace := by rw [deselEntry_eq]
@[simp] theorem deselEntry_produceTrace (s : State) : (deselEntry s).produceTrace = s.produceTrace := by rw [deselEntry_eq]
@[simp] theorem deselEntry_labels (s : State) : (deselEntry s).labels = s.labels := by rw [deselEntry_eq]
@[simp] theorem deselEntry_given (s : State) : (deselEntry s).given = s.given := by rw [deselEntry_eq]
@[simp] theorem deselEntry_drawNo (s : State) : (deselEntry s).drawNo = s.drawNo := by rw [deselEntry_eq]

/-- The edge body, by the state it enters. -/
theorem edgeBody_next {lvl : Bool} {s t : State} (h : edgeBody lvl s = .next t) :
    (nextEdge s.edge lvl = .selected ∧ s.len ≠ 0#16 ∧ t = selected { s with edge := .selected }) ∨
    (nextEdge s.edge lvl = .deselected ∧ t = deselEntry { s with edge := .deselected }) := by
  unfold edgeBody at h
  cases hn : nextEdge s.edge lvl with
  | unknown => cases he : s.edge <;> cases lvl <;> simp [nextEdge, he] at hn <;> cases hn
  | selected =>
    simp [hn] at h
    exact .inl ⟨rfl, selEntry_next h⟩
  | deselected =>
    simp [hn] at h
    exact .inr ⟨rfl, h.symm⟩

theorem edgeBody_selected {lvl : Bool} {s : State} (hn : nextEdge s.edge lvl = .selected) (hl : s.len ≠ 0#16) :
    edgeBody lvl s = .next (selected { s with edge := .selected }) := by
  simp [edgeBody, hn]
  exact selEntry_live hl

theorem edgeBody_deselected {lvl : Bool} {s : State} (hn : nextEdge s.edge lvl = .deselected) :
    edgeBody lvl s = .next (deselEntry { s with edge := .deselected }) := by
  simp [edgeBody, hn]

/-- The byte SR holds when a bit is clocked: the loaded byte at the first bit, what is left of it later. -/
def shiftSource (s : State) : Byte :=
  if s.bitCnt = 0#3 then (if s.txValid then s.txReg else staleByte s) else s.sr

/-- One clocked bit, as one update. -/
theorem clockBit_enabled {s : State} (b : Bool) (h : shiftEnabled s = true) :
    clockBit b s = { s with
      sr := shiftIn s.par.bitOrder (shiftSource s) b
      misoTrace := s.misoTrace ++ [.bit (outBit s.par.bitOrder (shiftSource s))]
      txValid := decide (s.bitCnt ≠ 0#3) && s.txValid
      staleTx := s.staleTx || (decide (s.bitCnt = 0#3) && !s.txValid)
      bitCnt := s.bitCnt + 1#3
      rxReg := if s.bitCnt = 7#3 then
          (if s.tcPend then overrunByte s else shiftIn s.par.bitOrder (shiftSource s) b) else s.rxReg
      tcPend := s.tcPend || decide (s.bitCnt = 7#3)
      overrun := s.overrun || (decide (s.bitCnt = 7#3) && s.tcPend) } := by
  unfold clockBit
  rw [if_pos h]
  by_cases h0 : s.bitCnt = 0#3
  · have h7 : s.bitCnt ≠ 7#3 := by rw [h0]; decide
    cases ht : s.txValid <;>
      simp [h0, ht, loadShift, shiftBit, countBit, shiftSource, emitMiso, staleByte]
  · by_cases h7 : s.bitCnt = 7#3
    · cases hp : s.tcPend <;>
        simp [h7, hp, shiftBit, countBit, completeByte, shiftSource, emitMiso, overrunByte]
    · simp [h0, h7, shiftBit, countBit, shiftSource, emitMiso]

theorem clockBit_disabled {s : State} (b : Bool) (h : shiftEnabled s = false) :
    clockBit b s = emitMiso .z s := by
  simp [clockBit, h]

/-- Shift enable rests on fields no bit changes. -/
@[simp] theorem shiftEnabled_clockBit (b : Bool) (s : State) : shiftEnabled (clockBit b s) = shiftEnabled s := by
  cases h : shiftEnabled s
  · rw [clockBit_disabled b h]; exact h
  · rw [clockBit_enabled b h]; exact h

/-- A cursor that is advanced stays below the length. -/
theorem nextCursor_toNat (a : Half) {n : Half} (h : n ≠ 0#16) :
    (nextCursor a n).toNat = (a.toNat + 1) % n.toNat := by
  have hn : 0 < n.toNat := by
    rcases Nat.eq_zero_or_pos n.toNat with h0 | h0
    · exact absurd (BitVec.eq_of_toNat_eq (by simpa using h0)) h
    · exact h0
  have := Nat.mod_lt (a.toNat + 1) hn
  have := n.isLt
  simp only [nextCursor, BitVec.toNat_ofNat]
  exact Nat.mod_eq_of_lt (by omega)

end Sys2Proof.Machine
end

