-- ==== Sys2Proof/Laws/Exec.lean ====
section
/-! SUPPORT. What each meaning can answer, said once: the inversion lemmas that the claims about every instruction cite. -/

namespace Sys2Proof.Machine

/-- What CFG answers: one failure, which changes ERR only, or the configured state. -/
theorem execCfg_next {prd cns : Bool} {pin : Option Byte} {len : Half} {s t : State}
    (h : execCfg prd cns pin len s = .next t) :
    (s.active = true ∧ t = setErr .alreadyActive s) ∨
    (s.active = false ∧ len = 0#16 ∧ t = setErr .zeroLength s) ∨
    (s.active = false ∧ len ≠ 0#16 ∧ s.par.bufMax < len ∧ t = setErr .noResource s) ∨
    (s.active = false ∧ len ≠ 0#16 ∧ ¬ s.par.bufMax < len ∧ t = configured prd cns (pinField pin) len s) := by
  unfold execCfg failCmd at h
  cases ha : s.active
  · rw [ha, if_neg (by simp)] at h
    by_cases hl : len = 0#16
    · rw [if_pos hl] at h; injection h with h; exact .inr (.inl ⟨rfl, hl, h.symm⟩)
    · rw [if_neg hl] at h
      by_cases hb : s.par.bufMax < len
      · rw [if_pos hb] at h; injection h with h; exact .inr (.inr (.inl ⟨rfl, hl, hb, h.symm⟩))
      · rw [if_neg hb] at h; injection h with h; exact .inr (.inr (.inr ⟨rfl, hl, hb, h.symm⟩))
  · rw [if_pos ha] at h; injection h with h; exact .inl ⟨rfl, h.symm⟩

/-- What INJECT_EDGE answers. -/
theorem execInjectEdge_next {lvl : Bool} {s t : State} (h : execInjectEdge lvl s = .next t) :
    (s.active = false ∧ t = setErr .notActive s) ∨
    (s.active = true ∧ nextEdge s.edge lvl = .selected ∧ s.len ≠ 0#16 ∧
      t = selected { setErr .ok s with edge := .selected }) ∨
    (s.active = true ∧ nextEdge s.edge lvl = .deselected ∧ t = deselEntry { setErr .ok s with edge := .deselected }) := by
  unfold execInjectEdge failCmd at h
  cases ha : s.active
  · rw [if_neg (by simp [ha])] at h; injection h with h; exact .inl ⟨rfl, h.symm⟩
  · rw [if_pos ha] at h
    rcases edgeBody_next h with ⟨h1, h2, h3⟩ | ⟨h1, h2⟩
    · exact .inr (.inl ⟨rfl, h1, h2, h3⟩)
    · exact .inr (.inr ⟨rfl, h1, h2⟩)

/-- What DISPATCH_EDGE answers. -/
theorem execDispatchEdge_next {s t : State} (h : execDispatchEdge s = .next t) :
    edgeEnabled s = true ∧
    ((nextEdge s.edge s.ssIn = .selected ∧ s.len ≠ 0#16 ∧
        t = selected { s with ssPend := false, edge := .selected }) ∨
      (nextEdge s.edge s.ssIn = .deselected ∧ t = deselEntry { s with ssPend := false, edge := .deselected })) := by
  unfold execDispatchEdge at h
  cases he : edgeEnabled s
  · simp [he] at h
  · rw [if_pos he] at h
    exact ⟨rfl, edgeBody_next h⟩

/-- A select change, as one update. -/
theorem execSsLevel_eq (v : Bool) (s : State) :
    execSsLevel v s = .next { s with
      ssIn := v
      ssPend := s.ssPend || (decide (v ≠ s.ssIn) && s.selAtt)
      edgeLost := s.edgeLost || (decide (v ≠ s.ssIn) && s.selAtt && s.ssPend)
      bitCnt := if v = false ∧ v ≠ s.ssIn ∧ s.selAtt = true then 0#3 else s.bitCnt } := by
  unfold execSsLevel selectChange
  cases v <;> cases hi : s.ssIn <;> cases ha : s.selAtt <;> cases hp : s.ssPend <;>
    simp [Config.selActiveLevel]

/-- What DISPATCH_BYTE answers when it is enabled and its cursors are live. -/
theorem execDispatchByte_live {s : State} (he : byteEnabled s = true) (hr : s.rc.toNat < s.len.toNat)
    (hs : s.sc.toNat < s.len.toNat) :
    execDispatchByte s = .next (stage ((s.buf.write s.rc.toNat s.rxReg).read s.sc.toNat)
      { s with
        tcPend := false
        buf := s.buf.write s.rc.toNat s.rxReg
        rc := nextCursor s.rc s.len
        sc := nextCursor s.sc s.len }) := by
  unfold execDispatchByte
  rw [if_pos he, memWrite_live (s := { s with tcPend := false }) _ hr, andThen_next,
    stageNext_live (by simpa using hs)]
  simp [stage_eq, advanceSc, advanceRc, stageChoice]
  exact ⟨rfl, rfl, rfl⟩

theorem execDispatchByte_next {s t : State} (h : execDispatchByte s = .next t) :
    byteEnabled s = true ∧ s.rc.toNat < s.len.toNat ∧ s.sc.toNat < s.len.toNat ∧
      t = stage ((s.buf.write s.rc.toNat s.rxReg).read s.sc.toNat)
        { s with
          tcPend := false
          buf := s.buf.write s.rc.toNat s.rxReg
          rc := nextCursor s.rc s.len
          sc := nextCursor s.sc s.len } := by
  by_cases he : byteEnabled s = true
  · have h' := h
    unfold execDispatchByte at h'
    rw [if_pos he] at h'
    obtain ⟨u, hu, hk⟩ := andThen_eq_next h'
    obtain ⟨hr, rfl⟩ := memWrite_next hu
    have hs := (stageNext_next hk).1
    have hs' : s.sc.toNat < s.len.toNat := by simpa using hs
    rw [execDispatchByte_live he hr hs'] at h
    injection h with h
    exact ⟨he, hr, hs', h.symm⟩
  · simp [execDispatchByte, he] at h

/-- A bit changes the shift register and its flags, and nothing else. -/
theorem clockBit_frame (b : Bool) (s : State) : ∃ sr bitCnt txValid rxReg staleTx tcPend overrun misoTrace,
    clockBit b s = { s with
      sr := sr, bitCnt := bitCnt, txValid := txValid, rxReg := rxReg, staleTx := staleTx, tcPend := tcPend,
      overrun := overrun, misoTrace := s.misoTrace ++ misoTrace } := by
  cases h : shiftEnabled s
  · exact ⟨s.sr, s.bitCnt, s.txValid, s.rxReg, s.staleTx, s.tcPend, s.overrun, [.z], clockBit_disabled b h⟩
  · exact ⟨_, _, _, _, _, _, _, _, clockBit_enabled b h⟩

/-- So do several bits. -/
theorem clockBits_frame (l : List Bool) (s : State) : ∃ sr bitCnt txValid rxReg staleTx tcPend overrun misoTrace,
    l.foldl (fun t b => clockBit b t) s = { s with
      sr := sr, bitCnt := bitCnt, txValid := txValid, rxReg := rxReg, staleTx := staleTx, tcPend := tcPend,
      overrun := overrun, misoTrace := s.misoTrace ++ misoTrace } := by
  induction l generalizing s with
  | nil => exact ⟨s.sr, s.bitCnt, s.txValid, s.rxReg, s.staleTx, s.tcPend, s.overrun, [], by simp⟩
  | cons b l ih =>
    obtain ⟨_, _, _, _, _, _, _, m, h⟩ := clockBit_frame b s
    rw [List.foldl_cons, h]
    obtain ⟨sr, bc, tv, rx, st, tc, ov, m', h'⟩ := ih _
    refine ⟨sr, bc, tv, rx, st, tc, ov, m ++ m', ?_⟩
    rw [h']
    simp

/-- What BYTE answers. -/
theorem execByte_next {m : Byte} {s t : State} (h : execByte m s = .next t) :
    s.bitCnt = 0#3 ∧ t = (wireBits s.par.bitOrder m).foldl (fun t b => clockBit b t) s := by
  unfold execByte at h
  by_cases h0 : s.bitCnt = 0#3
  · rw [if_pos h0] at h; injection h with h; exact ⟨h0, h.symm⟩
  · simp [h0] at h

end Sys2Proof.Machine
end

