-- ==== Sys2Proof/Laws/PerInstr.lean ====
section
/-! SUPPORT. One lemma per instruction: its encoding matches its row of the opcode map (`30_encoding.md` R71). -/

namespace Sys2Proof.Laws.RowAdmitsEncoding

/-- The instruction's encoding matches the instruction's row. -/
def Statement (i : Instr) : Prop := i.row.admits (encode i) = true

theorem cfg (prd cns : Bool) (pin : Option Byte) (len : Half) : Statement (.cfg prd cns pin len) := by
  simp only [Statement, Instr.row, encode, OpcodeRow.admits, decide_eq_true_eq]
  refine BitVec.eq_of_getLsbD_eq fun i hi => ?_
  interval_cases i <;> simp

theorem teardown : Statement .teardown := by unfold Statement; decide

theorem injectEdge (lvl : Bool) : Statement (.injectEdge lvl) := by cases lvl <;> unfold Statement <;> decide

theorem ssLevel (v : Bool) : Statement (.ssLevel v) := by cases v <;> unfold Statement <;> decide

theorem sckBit (mosi : Bool) : Statement (.sckBit mosi) := by cases mosi <;> unfold Statement <;> decide

theorem byte (m : Byte) : Statement (.byte m) := by
  simp only [Statement, Instr.row, encode, OpcodeRow.admits, decide_eq_true_eq]
  refine BitVec.eq_of_getLsbD_eq fun i hi => ?_
  interval_cases i <;> simp

theorem rd (idx : BitVec 4) : Statement (.rd idx) := by
  simp only [Statement, Instr.row, encode, OpcodeRow.admits, decide_eq_true_eq]
  refine BitVec.eq_of_getLsbD_eq fun i hi => ?_
  interval_cases i <;> simp

theorem dispatchEdge : Statement .dispatchEdge := by unfold Statement; decide

theorem dispatchByte : Statement .dispatchByte := by unfold Statement; decide

end Sys2Proof.Laws.RowAdmitsEncoding
end

