-- ==== Sys2Proof/Laws/Run.lean ====
section
/-! SUPPORT. The laws of runs: the fields of a state under other free inputs, what one label of a run can do, and the induction over a run
packaged once. -/

namespace Sys2Proof.Machine

@[simp] theorem withInputs_par (g : FreeInputs) (n : Nat) (s : State) : (s.withInputs g n).par = s.par := rfl
@[simp] theorem withInputs_active (g : FreeInputs) (n : Nat) (s : State) : (s.withInputs g n).active = s.active := rfl
@[simp] theorem withInputs_len (g : FreeInputs) (n : Nat) (s : State) : (s.withInputs g n).len = s.len := rfl
@[simp] theorem withInputs_buf (g : FreeInputs) (n : Nat) (s : State) : (s.withInputs g n).buf = s.buf := rfl
@[simp] theorem withInputs_rc (g : FreeInputs) (n : Nat) (s : State) : (s.withInputs g n).rc = s.rc := rfl
@[simp] theorem withInputs_sc (g : FreeInputs) (n : Nat) (s : State) : (s.withInputs g n).sc = s.sc := rfl
@[simp] theorem withInputs_prd (g : FreeInputs) (n : Nat) (s : State) : (s.withInputs g n).prd = s.prd := rfl
@[simp] theorem withInputs_cns (g : FreeInputs) (n : Nat) (s : State) : (s.withInputs g n).cns = s.cns := rfl
@[simp] theorem withInputs_pin (g : FreeInputs) (n : Nat) (s : State) : (s.withInputs g n).pin = s.pin := rfl
@[simp] theorem withInputs_selAtt (g : FreeInputs) (n : Nat) (s : State) : (s.withInputs g n).selAtt = s.selAtt := rfl
@[simp] theorem withInputs_edge (g : FreeInputs) (n : Nat) (s : State) : (s.withInputs g n).edge = s.edge := rfl
@[simp] theorem withInputs_ssIn (g : FreeInputs) (n : Nat) (s : State) : (s.withInputs g n).ssIn = s.ssIn := rfl
@[simp] theorem withInputs_ssPend (g : FreeInputs) (n : Nat) (s : State) : (s.withInputs g n).ssPend = s.ssPend := rfl
@[simp] theorem withInputs_tcPend (g : FreeInputs) (n : Nat) (s : State) : (s.withInputs g n).tcPend = s.tcPend := rfl
@[simp] theorem withInputs_sr (g : FreeInputs) (n : Nat) (s : State) : (s.withInputs g n).sr = s.sr := rfl
@[simp] theorem withInputs_bitCnt (g : FreeInputs) (n : Nat) (s : State) : (s.withInputs g n).bitCnt = s.bitCnt := rfl
@[simp] theorem withInputs_txReg (g : FreeInputs) (n : Nat) (s : State) : (s.withInputs g n).txReg = s.txReg := rfl
@[simp] theorem withInputs_txValid (g : FreeInputs) (n : Nat) (s : State) : (s.withInputs g n).txValid = s.txValid := rfl
@[simp] theorem withInputs_rxReg (g : FreeInputs) (n : Nat) (s : State) : (s.withInputs g n).rxReg = s.rxReg := rfl
@[simp] theorem withInputs_staleTx (g : FreeInputs) (n : Nat) (s : State) : (s.withInputs g n).staleTx = s.staleTx := rfl
@[simp] theorem withInputs_overrun (g : FreeInputs) (n : Nat) (s : State) : (s.withInputs g n).overrun = s.overrun := rfl
@[simp] theorem withInputs_wcol (g : FreeInputs) (n : Nat) (s : State) : (s.withInputs g n).wcol = s.wcol := rfl
@[simp] theorem withInputs_edgeLost (g : FreeInputs) (n : Nat) (s : State) : (s.withInputs g n).edgeLost = s.edgeLost := rfl
@[simp] theorem withInputs_err (g : FreeInputs) (n : Nat) (s : State) : (s.withInputs g n).err = s.err := rfl
@[simp] theorem withInputs_misoTrace (g : FreeInputs) (n : Nat) (s : State) : (s.withInputs g n).misoTrace = s.misoTrace := rfl
@[simp] theorem withInputs_consumeTrace (g : FreeInputs) (n : Nat) (s : State) : (s.withInputs g n).consumeTrace = s.consumeTrace := rfl
@[simp] theorem withInputs_rdTrace (g : FreeInputs) (n : Nat) (s : State) : (s.withInputs g n).rdTrace = s.rdTrace := rfl
@[simp] theorem withInputs_produceTrace (g : FreeInputs) (n : Nat) (s : State) : (s.withInputs g n).produceTrace = s.produceTrace := rfl
@[simp] theorem withInputs_labels (g : FreeInputs) (n : Nat) (s : State) : (s.withInputs g n).labels = s.labels := rfl
@[simp] theorem withInputs_given (g : FreeInputs) (n : Nat) (s : State) : (s.withInputs g n).given = g := rfl
@[simp] theorem withInputs_drawNo (g : FreeInputs) (n : Nat) (s : State) : (s.withInputs g n).drawNo = n := rfl
@[simp] theorem edgeEnabled_withInputs (g : FreeInputs) (n : Nat) (s : State) :
    edgeEnabled (s.withInputs g n) = edgeEnabled s := rfl
@[simp] theorem byteEnabled_withInputs (g : FreeInputs) (n : Nat) (s : State) :
    byteEnabled (s.withInputs g n) = byteEnabled s := rfl
@[simp] theorem shiftEnabled_withInputs (g : FreeInputs) (n : Nat) (s : State) :
    shiftEnabled (s.withInputs g n) = shiftEnabled s := rfl

/-- What one label of a run can do. -/
theorem takeLabel_next {e : RunLabel} {s t : State} (h : takeLabel e s = .next t) :
    (∃ i, e.decoded = .instr i ∧ exec i (e.start s) = .next t) ∨
      (e.decoded = .illegalCmd ∧ t = setErr .illegalCmd (e.start s)) := by
  unfold takeLabel at h
  cases hd : e.decoded with
  | instr i => rw [hd] at h; exact .inl ⟨i, rfl, h⟩
  | illegalCmd =>
    simp only [hd, execIllegalCmd, failCmd, Host.Outcome.next.injEq] at h
    exact .inr ⟨rfl, h.symm⟩
  | reservedEvent => simp [hd] at h

/-- A run that ends splits at its first label, and so do its events. -/
theorem runLabels_cons_next {e : RunLabel} {es : List RunLabel} {s t : State} (h : runLabels (e :: es) s = .next t) :
    ∃ u, takeLabel e s = .next u ∧ runLabels es u = .next t ∧ history (e :: es) s = eventOf e s ++ history es u := by
  obtain ⟨u, hu, ht⟩ := andThen_eq_next h
  exact ⟨u, hu, ht, by rw [history, hu]⟩

@[simp] theorem everyEvent_append (p : Instr → State → Bool) (h k : List Event) :
    everyEvent p (h ++ k) = (everyEvent p h && everyEvent p k) := List.all_append

@[simp] theorem everyEvent_nil (p : Instr → State → Bool) : everyEvent p [] = true := rfl

@[simp] theorem everyEvent_cons (p : Instr → State → Bool) (e : Event) (h : List Event) :
    everyEvent p (e :: h) = (p e.instr e.start && everyEvent p h) := rfl

theorem eventOf_instr {e : RunLabel} {i : Instr} (h : e.decoded = .instr i) (s : State) : eventOf e s = [⟨i, e.start s⟩] := by
  simp [eventOf, h]

/-- The induction over a run: what every label keeps, where its event meets `p`, holds at the end of a run whose events meet `p`. The free
inputs a label brings and an illegal command word must keep it too. -/
theorem runLabels_keeps {Inv : State → Prop} {p : Instr → State → Bool}
    (inputs : ∀ (g : FreeInputs) (n : Nat) (s : State), Inv s → Inv (s.withInputs g n))
    (illegal : ∀ s : State, Inv s → Inv (setErr .illegalCmd s))
    (step : ∀ (i : Instr) (s t : State), Inv s → p i s = true → exec i s = .next t → Inv t) :
    ∀ {es : List RunLabel} {s t : State}, Inv s → everyEvent p (history es s) = true → runLabels es s = .next t → Inv t := by
  intro es
  induction es with
  | nil => intro s t hs _ h; simp only [runLabels, Host.Outcome.next.injEq] at h; exact h ▸ hs
  | cons e es ih =>
    intro s t hs hp h
    obtain ⟨u, hu, ht, hh⟩ := runLabels_cons_next h
    rw [hh, everyEvent_append, Bool.and_eq_true] at hp
    refine ih ?_ hp.2 ht
    rcases takeLabel_next hu with ⟨i, hd, hx⟩ | ⟨hd, rfl⟩
    · refine step i _ _ (inputs _ _ _ hs) ?_ hx
      have hp := hp.1
      rw [eventOf_instr hd, everyEvent_cons, Bool.and_eq_true] at hp
      exact hp.1
    · exact illegal _ (inputs _ _ _ hs)

/-- WELL_FRAMED holds the first condition of every byte and the last sentence at every DeselEntry. -/
theorem wellFramed_startsSelected {f : Framing} {h : List Event} (hw : wellFramed f h = true) :
    everyEvent startsSelected h = true := by
  induction h generalizing f with
  | nil => rfl
  | cons e h ih =>
    simp only [wellFramed, framedEvent, Bool.and_eq_true, Bool.or_eq_true] at hw
    rw [everyEvent_cons, Bool.and_eq_true]
    refine ⟨?_, ih hw.2⟩
    simp only [startsSelected, Bool.and_eq_true, Bool.or_eq_true]
    exact ⟨hw.1.1.imp id fun h => h.1.1, hw.1.2⟩

end Sys2Proof.Machine
end

