-- ==== Sys2Proof/Tests/Slice0.lean ====
section
/-! SUPPORT. The smoke test of WellFormed, the encodings written out bit by bit, the spec's vectors (`95_test_vectors.md` and the
examples in the rules; each test names its source), and for each obligation with hypotheses the states and operands that meet them. -/

namespace Sys2Proof.Tests

open Sys2Proof.Machine

/-! ### WellFormed -/

/-- R78: `pin=255` is a synonym of `pin=none`, so `some 0xFF` is refused; pins 0 and 254 are not. -/
theorem test_wellFormed_pin : Instr.wellFormed (.cfg false false (some 0xFF#8) 1#16) = false ∧
    Instr.wellFormed (.cfg false false (some 0xFE#8) 1#16) = true ∧
    Instr.wellFormed (.cfg false false (some 0x00#8) 1#16) = true ∧
    Instr.wellFormed (.cfg false false none 1#16) = true := by decide

/-! ### Decoding: each word written from the layout of R65 to R68 -/

/-- R65, the pattern `0001 P C 00 pppppppp llllllllllllllll`. -/
theorem test_decode_cfg :
    decode (.cmd 0b00011000000000111000000000000001#32) = .instr (.cfg true false (some 3#8) 0x8001#16) ∧
    decode (.cmd 0b00010100111111110000000000000100#32) = .instr (.cfg false true none 4#16) ∧
    decode (.cmd 0b00010110111111110000000000000100#32) = .illegalCmd := by decide

/-- R66. -/
theorem test_decode_teardown : decode (.cmd 0b00100000000000000000000000000000#32) = .instr .teardown ∧
    decode (.cmd 0b00100000000000000000000000000001#32) = .illegalCmd := by decide

/-- R67. -/
theorem test_decode_injectEdge : decode (.cmd 0b00110000000000000000000000000001#32) = .instr (.injectEdge true) ∧
    decode (.cmd 0b00110000000000000000000000000010#32) = .illegalCmd := by decide

/-- R68: SS_LEVEL and SCK_BIT. -/
theorem test_decode_line : decode (.ev 0b0001000000000001#16) = .instr (.ssLevel true) ∧
    decode (.ev 0b0010000000000001#16) = .instr (.sckBit true) ∧
    decode (.ev 0b0001000000000010#16) = .reservedEvent := by decide

/-- R68: BYTE and RD. -/
theorem test_decode_byte_and_rd : decode (.ev 0b0011000010000001#16) = .instr (.byte 0x81#8) ∧
    decode (.ev 0b0100000000001001#16) = .instr (.rd 9#4) ∧
    decode (.ev 0b0011000100000000#16) = .reservedEvent := by decide

/-- R68: the dispatches. -/
theorem test_decode_dispatch : decode (.ev 0b1000000000000000#16) = .instr .dispatchEdge ∧
    decode (.ev 0b1001000000000000#16) = .instr .dispatchByte ∧
    decode (.ev 0b1010000000000000#16) = .reservedEvent := by decide

/-- R63: the port tells the format, so the same number is two labels. -/
theorem test_decodeTableWord : decodeTableWord 32 0x30000001 = some (.injectEdge true) ∧
    decodeTableWord 16 0x30AA = some (.byte 0xAA#8) ∧ decodeTableWord 32 0x30AA = none := by decide

/-- A word placed by `withFetchWord` is the first label after reset. -/
theorem test_withFetchWord : (match step (State.reset.withFetchWord 32 0x1CFF0004) with
    | .next t => (t.active, t.len) | .fault _ => (false, 0#16) | .refused _ => (false, 0#16)) = (true, 4#16) := by decide

/-! ### States -/

/-- The buffer `[a, b, c, d]`; no cell of the tests below holds 0x00. -/
def cells (a b c d : Byte) : Memory := [(0, a), (1, b), (2, c), (3, d)]

/-- After `cfg len=4, pin=none, prd=1, cns=1`, with every free input written. -/
def live : State :=
  { State.reset with
    active := true, len := 4#16, prd := true, cns := true
    given := ⟨some [0x11#8, 0x22#8, 0x33#8, 0x44#8], some .drop, some 0x3C#8, some 0x00#8⟩ }

/-- After the producer of R82's example filled the buffer. -/
def inTransaction : State :=
  { live with edge := .selected, sc := 1#16, buf := cells 0x11 0x22 0x33 0x44, txReg := 0x11#8, txValid := true }

/-- After the transaction: DESELECTED, zeroed, the cursors where they were. -/
def between : State := { inTransaction with edge := .deselected, buf := [] }

/-- A byte is waiting for its handler. -/
def received : State := { inTransaction with tcPend := true, rxReg := 0xAA#8, txValid := false }

/-- With a select pin attached. -/
def pinned : State := { live with pin := 3#8, selAtt := true }

/-- The line rose, its handler has not run. -/
def rising : State := { pinned with ssIn := true, ssPend := true }

/-- The line fell, its handler has not run, and the last byte is still pending. -/
def falling : State := { received with pin := 3#8, selAtt := true, ssPend := true }

/-- In a byte that is `n` bits long so far. -/
def midByte (n : BitVec 3) (s : State) : State := { s with bitCnt := n, sr := 0x55#8 }

/-- Labels of a run, each with a producer's answer and a fate of a late stage of its own. -/
def runOf (is : List Instr) : List RunLabel :=
  is.zipIdx.map fun x =>
    ⟨.instr x.1, ⟨some [0x11#8, 0x22#8, 0x33#8, 0x44#8], some (if x.2 % 2 = 0 then .take else .drop), some 0x3C#8, some 0x00#8⟩, x.2⟩

/-- What a function of the next state gives, where there is one. -/
def after {α : Type} (o : Result) (f : State → α) : Option α :=
  match o with
  | .next s => some (f s)
  | .fault _ => none
  | .refused _ => none

/-- Why a label has no step, where it has none. -/
def whyRefused (o : Result) : Option Refusal :=
  match o with
  | .next _ => none
  | .fault _ => none
  | .refused r => some r

/-! ### One step: vectors of the spec -/

/-- VC1, VC9. -/
theorem test_cfg_succeeds :
    after (exec (.cfg true true none 4#16) State.reset) (fun t => (t.active, t.len, t.pin, t.selAtt, t.err)) =
      some (true, 4#16, 0xFF#8, false, 0#4) ∧
    after (exec (.cfg false false (some 0#8) 8#16) State.reset) (fun t => (t.pin, t.selAtt, t.err)) =
      some (0x00#8, true, 0#4) := by decide

/-- VC2, VC3, VC4, VC7. -/
theorem test_cfg_fails_in_order :
    after (exec (.cfg false false none 0#16) State.reset) (fun t => (t.err, t.active)) = some (3#4, false) ∧
    after (exec (.cfg false false none 257#16) State.reset) (fun t => (t.err, t.active)) = some (2#4, false) ∧
    after (exec (.cfg false false none 256#16) State.reset) (fun t => (t.err, t.active)) = some (0#4, true) ∧
    after (exec (.cfg false false none 0#16) live) (fun t => (t.err, t.len)) = some (1#4, 4#16) := by decide

/-- VC12. -/
theorem test_teardown_in_transaction :
    after (exec .teardown { inTransaction with pin := 0#8, selAtt := true })
      (fun t => (t.active, t.selAtt, t.pin, t.edge, t.consumeTrace)) =
      some (false, false, 0xFF#8, .unknown, []) := by decide

/-- VC15, and TX_REG kept with TX_VALID cleared (`10_state.md` R43). -/
theorem test_teardown_keeps_flags :
    after (exec .teardown { inTransaction with overrun := true }) (fun t => (t.overrun, t.txReg, t.txValid)) =
      some (true, 0x11#8, false) := by decide

/-- The example of R82, VC16. -/
theorem test_injectEdge_selects :
    after (exec (.injectEdge true) live) (fun t => (t.edge, t.buf, t.txReg, t.txValid, t.sc)) =
      some (.selected, cells 0x11 0x22 0x33 0x44, 0x11#8, true, 1#16) ∧
    after (exec (.injectEdge true) State.reset) (fun t => (t.err, t.edge)) = some (5#4, .unknown) := by decide

/-- VE15. -/
theorem test_injectEdge_late_drop :
    after (exec (.injectEdge true) (midByte 2#3 live)) (fun t => (t.txReg, t.txValid, t.wcol, t.sc)) =
      some (0x00#8, false, true, 1#16) := by decide

/-- VE1, VE3, VE5. -/
theorem test_ssLevel_changes :
    after (exec (.ssLevel true) pinned) (fun t => (t.ssIn, t.ssPend, t.edgeLost)) = some (true, true, false) ∧
    after (exec (.ssLevel false) rising) (fun t => (t.ssIn, t.ssPend, t.edgeLost)) = some (false, true, true) ∧
    after (exec (.ssLevel true) live) (fun t => (t.ssIn, t.ssPend)) = some (true, false) := by decide

/-- VE4, VE2. -/
theorem test_ssLevel_abandons_byte :
    after (exec (.ssLevel false) (midByte 5#3 { pinned with ssIn := true })) (fun t => (t.ssPend, t.bitCnt, t.tcPend)) =
      some (true, 0#3, false) ∧
    after (exec (.ssLevel false) pinned) (fun t => (t.ssIn, t.ssPend)) = some (false, false) := by decide

/-- VB3, VB4. -/
theorem test_sckBit_shifts :
    after (exec (.sckBit true) inTransaction) (fun t => (t.misoTrace, t.sr, t.bitCnt, t.txValid)) =
      some ([.bit false], 0x23#8, 1#3, false) ∧
    after (exec (.sckBit true) { inTransaction with par := { bufMax := 256#16, bitOrder := .lsbFirst } }) (fun t => (t.misoTrace, t.sr, t.bitCnt)) =
      some ([.bit true], 0x88#8, 1#3) := by decide

/-- VB6, VB7. -/
theorem test_sckBit_completes :
    after (exec (.sckBit true) (midByte 7#3 inTransaction)) (fun t => (t.sr, t.bitCnt, t.rxReg, t.tcPend)) =
      some (0xAB#8, 0#3, 0xAB#8, true) ∧
    after (exec (.sckBit true) (midByte 7#3 received)) (fun t => (t.bitCnt, t.rxReg, t.overrun, t.tcPend)) =
      some (0#3, 0x00#8, true, true) := by decide

/-- VB8. -/
theorem test_byte_exchanges :
    after (exec (.byte 0x3C#8) { inTransaction with txReg := 0xC3#8 }) (fun t => (t.misoTrace, t.rxReg, t.tcPend, t.txValid)) =
      some ([.bit true, .bit true, .bit false, .bit false, .bit false, .bit false, .bit true, .bit true], 0x3C#8, true,
        false) := by decide

/-- VB9, VB10. -/
theorem test_byte_refused_and_not_driven : whyRefused (exec (.byte 0x00#8) (midByte 4#3 inTransaction)) = some .byteNotAligned ∧
    after (exec (.byte 0xFF#8) State.reset) (fun t => (t.misoTrace, t.rxReg)) = some ([.z, .z, .z, .z, .z, .z, .z, .z], 0x00#8) := by
  decide

/-- VC21, the example of R83, VC20. -/
theorem test_rd_registers :
    after (exec (.rd 6#4) State.reset) (fun t => t.rdTrace) = some [⟨6#4, 0x00000100#32⟩] ∧
    after (exec (.rd 3#4) inTransaction) (fun t => t.rdTrace) = some [⟨3#4, 0x00010000#32⟩] ∧
    after (exec (.rd 9#4) live) (fun t => t.rdTrace) = some [⟨9#4, 0x00000000#32⟩] := by decide

/-- VC22, VC23. -/
theorem test_rd_configuration :
    after (exec (.rd 5#4) { live with prd := false, pin := 3#8, selAtt := true }) (fun t => t.rdTrace) =
      some [⟨5#4, 0x00000203#32⟩] ∧
    after (exec (.rd 2#4) live) (fun t => t.rdTrace) = some [⟨2#4, 0x00000004#32⟩] := by decide

/-- VE7 with LEN 4, VE8. -/
theorem test_dispatchEdge_first_run :
    after (exec .dispatchEdge rising) (fun t => (t.ssPend, t.edge, t.txReg, t.txValid, t.sc)) =
      some (false, .selected, 0x11#8, true, 1#16) ∧
    after (exec .dispatchEdge { pinned with ssPend := true }) (fun t => (t.edge, t.consumeTrace)) =
      some (.deselected, [[0x00#8, 0x00#8, 0x00#8, 0x00#8]]) := by decide

/-- VE9, VE6. -/
theorem test_dispatchEdge_deselects :
    after (exec .dispatchEdge falling) (fun t => (t.consumeTrace, t.buf, t.sc)) =
      some ([[0x11#8, 0x22#8, 0x33#8, 0x44#8]], [], 1#16) ∧
    whyRefused (exec .dispatchEdge pinned) = some .dispatchEdgeNotEnabled := ⟨by decide, by decide⟩

/-- VB11, VB15. -/
theorem test_dispatchByte_stores_and_stages :
    after (exec .dispatchByte received) (fun t => (t.buf, t.rc, t.txReg, t.sc, t.tcPend)) =
      some (cells 0xAA 0x22 0x33 0x44, 1#16, 0x22#8, 2#16, false) ∧
    whyRefused (exec .dispatchByte live) = some .dispatchByteNotEnabled := by decide

/-- VB14, VB12. -/
theorem test_dispatchByte_receives_first :
    after (exec .dispatchByte { received with rc := 2#16, sc := 2#16, rxReg := 0x7E#8 })
      (fun t => (t.buf.read 2, t.txReg, t.rc, t.sc)) = some (0x7E#8, 0x7E#8, 3#16, 3#16) ∧
    after (exec .dispatchByte { received with rc := 3#16, sc := 0#16 }) (fun t => (t.buf.read 3, t.rc, t.txReg, t.sc)) =
      some (0xAA#8, 0#16, 0x11#8, 1#16) := by decide

/-- VC6: a reserved bit wins over ALREADY_ACTIVE; a reserved event word has no step. -/
theorem test_step_reserved_words :
    after (step { live with labels := [⟨.cmd 0x11FF0004#32, .unwritten⟩] }) (fun t => (t.err, t.len)) = some (4#4, 4#16) ∧
    whyRefused (step { live with labels := [⟨.ev 0x1002#16, .unwritten⟩] }) = some .reservedEvent := by decide

/-! ### Witnesses: states and operands that meet the hypotheses of each obligation -/

/-- A label in front of the schedule of a state. -/
def withLabel (l : Label) (s : State) : State := { s with labels := [⟨l, .unwritten⟩] }

/-- The hypothesis `exec i s = .next t` for some `t`. -/
def hasStep (i : Instr) (s : State) : Bool := (after (exec i s) fun _ => ()).isSome

theorem test_witness_WorkedEncodingsDecode : State.reset.active = false := by decide

theorem test_witness_DecodeOfEncodeIsTheInstruction : Instr.wellFormed (.cfg true false (some 0xFE#8) 0xFFFF#16) = true ∧
    Instr.wellFormed .dispatchByte = true := by decide

theorem test_witness_DecodedLabelIsTheEncoding :
    decode (.cmd 0x18FEFFFF#32) = .instr (.cfg true false (some 0xFE#8) 0xFFFF#16) ∧
    decode (.ev 0x400F#16) = .instr (.rd 15#4) := by decide

theorem test_witness_OpcodeMapIsWhatDecodes : (Instr.ssLevel true).row.admits (.ev 0x1000#16) = true ∧
    (Instr.ssLevel false).row.admits (.ev 0x1000#16) = true ∧
    (Instr.cfg true true none 1#16).row.admits (.cmd 0x10000000#32) = true := by decide

theorem test_witness_OperandsAreTheFieldsOfTheWord :
    decode (.cmd 0x14FEFFFF#32) = .instr (.cfg false true (some 0xFE#8) 0xFFFF#16) ∧
    decode (.cmd 0x30000000#32) = .instr (.injectEdge false) ∧ decode (.ev 0x1001#16) = .instr (.ssLevel true) ∧
    decode (.ev 0x2001#16) = .instr (.sckBit true) ∧ decode (.ev 0x30FF#16) = .instr (.byte 0xFF#8) ∧
    decode (.ev 0x400F#16) = .instr (.rd 15#4) := by decide

/-- Each way to be illegal, at the ends of its range, and a legal word of each opcode. -/
theorem test_witness_IllegalCommandWordSetsErrOnly :
    (withLabel (.cmd 0x0FFFFFFF#32) live).labels = [⟨.cmd 0x0FFFFFFF#32, .unwritten⟩] ∧
    [0x0FFFFFFF#32, 0x40000000#32, 0xFFFFFFFF#32, 0x11000000#32, 0x12000000#32, 0x20000001#32, 0x28000000#32,
      0x30000002#32, 0x38000000#32].all (fun w => decide (decode (.cmd w) = .illegalCmd)) = true ∧
    [0x10000000#32, 0x1CFFFFFF#32, 0x20000000#32, 0x30000000#32, 0x30000001#32].all
      (fun w => decide (decode (.cmd w) ≠ .illegalCmd)) = true := by decide

/-- Each way to be reserved, at the ends of its range, and a legal word of each kind. -/
theorem test_witness_ReservedEventWordIsRefused :
    (withLabel (.ev 0x1002#16) live).labels = [⟨.ev 0x1002#16, .unwritten⟩] ∧
    [0x0000#16, 0x5000#16, 0x7FFF#16, 0xA000#16, 0xFFFF#16, 0x1002#16, 0x1800#16, 0x2002#16, 0x3100#16, 0x4010#16,
      0x8001#16, 0x9001#16].all (fun e => decide (decode (.ev e) = .reservedEvent)) = true ∧
    [0x1001#16, 0x2000#16, 0x30FF#16, 0x400F#16, 0x8000#16, 0x9000#16].all
      (fun e => decide (decode (.ev e) ≠ .reservedEvent)) = true := by decide

theorem test_witness_StepRunsTheDecodedInstruction :
    (withLabel (.ev 0x30AA#16) inTransaction).labels = [⟨.ev 0x30AA#16, .unwritten⟩] ∧
    decode (.ev 0x30AA#16) = .instr (.byte 0xAA#8) := by decide

theorem test_witness_EmptyScheduleLetsTheCoreDispatch :
    rising.labels = [] ∧ edgeEnabled rising = true ∧ byteEnabled rising = false ∧
    received.labels = [] ∧ edgeEnabled received = false ∧ byteEnabled received = true ∧
    falling.labels = [] ∧ edgeEnabled falling = true ∧ byteEnabled falling = true ∧
    live.labels = [] ∧ edgeEnabled live = false ∧ byteEnabled live = false := by decide

/-- A failure of each kind and a success, with LEN at 0, at BUF_MAX and one above it. -/
theorem test_witness_CfgConfiguresOrFailsInOrder : live.active = true ∧ State.reset.active = false ∧
    State.reset.par.bufMax < 257#16 ∧ 256#16 ≤ State.reset.par.bufMax ∧ (256#16 : Half) ≠ 0#16 ∧
    (withLabel (.cmd 0x11FF0004#32) live).labels = [⟨.cmd 0x11FF0004#32, .unwritten⟩] ∧
    BitVec.extractLsb' 28 4 0x11FF0004#32 = 1#4 ∧ BitVec.extractLsb' 24 2 0x11FF0004#32 ≠ 0#2 ∧
    BitVec.extractLsb' 24 2 0x10FF0004#32 = 0#2 := by decide

theorem test_witness_SecondCfgChangesOnlyErr :
    (withLabel (.cmd 0x10030002#32) inTransaction).labels = [⟨.cmd 0x10030002#32, .unwritten⟩] ∧
    0x10030002#32 &&& 0xF3000000#32 = 0x10000000#32 ∧ inTransaction.active = true := by decide

theorem test_witness_TeardownEmptiesTheCore :
    (withLabel (.cmd 0x20000001#32) live).labels = [⟨.cmd 0x20000001#32, .unwritten⟩] ∧
    BitVec.extractLsb' 28 4 0x20000001#32 = 2#4 ∧ BitVec.extractLsb' 0 28 0x20000001#32 ≠ 0#28 ∧
    BitVec.extractLsb' 28 4 0x20000000#32 = 2#4 ∧ BitVec.extractLsb' 0 28 0x20000000#32 = 0#28 := by decide

theorem test_witness_TeardownTwiceIsOnceAndCfgTwiceFails : hasStep .teardown inTransaction = true ∧
    after (exec (.cfg true true none 256#16) State.reset) (fun t => t.err) = some 0#4 := by decide

/-- The three clauses: inactive, entering SELECTED from DESELECTED and from UNKNOWN, leaving SELECTED. -/
theorem test_witness_InjectEdgeRunsTheEdgeBody : State.reset.active = false ∧
    (between.active = true ∧ between.len ≠ 0#16 ∧ between.edge = .deselected) ∧
    (live.active = true ∧ live.edge = .unknown) ∧ (inTransaction.active = true ∧ inTransaction.edge = .selected) := by decide

theorem test_witness_RdReturnsTheRegisterAndChangesNothing : hasStep (.rd 15#4) inTransaction = true := by decide

theorem test_witness_StatusFieldsAreAtTheirBits : live.edge = .unknown ∧ between.edge = .deselected ∧
    inTransaction.edge = .selected := by decide

theorem test_witness_RegisterFieldsAreAtTheirBits : (7#4 : BitVec 4) ≤ 7#4 ∧ (7#4 : BitVec 4) ≤ 15#4 := by decide

/-- The three clauses: no change, a change of a line that is not attached, a merged change, and a first change. -/
theorem test_witness_SsLevelMovesTheLine : pinned.ssIn = false ∧ live.selAtt = false ∧
    (rising.ssIn = true ∧ rising.selAtt = true ∧ rising.ssPend = true) ∧
    (pinned.selAtt = true ∧ pinned.ssPend = false) := by decide

/-- Not enabled; entering SELECTED from UNKNOWN and from DESELECTED; leaving SELECTED. -/
theorem test_witness_DispatchEdgeRunsTheEdgeBody : pinned.ssPend = false ∧
    (rising.active = true ∧ rising.selAtt = true ∧ rising.ssPend = true ∧ rising.len ≠ 0#16 ∧ rising.edge = .unknown ∧
      rising.ssIn = true) ∧
    ({ rising with edge := .deselected } : State).edge = .deselected ∧
    (falling.active = true ∧ falling.selAtt = true ∧ falling.ssPend = true ∧ falling.edge = .selected) := by decide

theorem test_witness_FirstEdgeRunWithTheLineLowRunsDeselEntry : live.active = true ∧ live.edge = .unknown ∧
    ({ pinned with ssPend := true } : State).active = true ∧ ({ pinned with ssPend := true } : State).edge = .unknown ∧
    ({ pinned with ssPend := true } : State).selAtt = true ∧ ({ pinned with ssPend := true } : State).ssIn = false := by decide

theorem test_witness_DeselectThenReselectConsumesThenProduces : inTransaction.Legal ∧ inTransaction.active = true ∧
    inTransaction.edge = .selected ∧ inTransaction.cns = true ∧ inTransaction.prd = true := by decide

theorem test_witness_LatchStaysInStepWithTheLine : falling.LatchInStep ∧ hasStep .dispatchEdge falling = true ∧
    hasStep (.ssLevel true) { pinned with edge := .deselected } = true ∧
    ({ pinned with edge := .deselected } : State).LatchInStep := by decide

/-- No shift enable; the first, a middle and the last bit; an attached line that is high. -/
theorem test_witness_SckBitShiftsOneBit : shiftEnabled pinned = false ∧ shiftEnabled State.reset = false ∧
    shiftEnabled inTransaction = true ∧ inTransaction.bitCnt = 0#3 ∧
    shiftEnabled (midByte 6#3 inTransaction) = true ∧ shiftEnabled (midByte 7#3 received) = true ∧
    rising.selAtt = true ∧ rising.ssIn = true := by decide

theorem test_witness_ByteIsEightBitsAndExchangesAByte : (midByte 1#3 live).bitCnt ≠ 0#3 ∧ (midByte 7#3 live).bitCnt ≠ 0#3 ∧
    pinned.bitCnt = 0#3 ∧ shiftEnabled pinned = false ∧ inTransaction.bitCnt = 0#3 ∧ shiftEnabled inTransaction = true := by
  decide

/-- In time; late and taken; late and dropped. -/
theorem test_witness_StageWritesOrDropsTheByte : live.bitCnt = 0#3 ∧ (midByte 1#3 live).bitCnt ≠ 0#3 ∧
    stageChoice (midByte 1#3 live) = .drop ∧ (midByte 7#3 live).bitCnt ≠ 0#3 ∧
    stageChoice { midByte 7#3 live with given := ⟨none, some .take, none, none⟩ } = .take := by decide

/-- Not enabled in either way, and enabled with the cursors at the ends of the buffer. -/
theorem test_witness_DispatchByteStoresThenStages : live.tcPend = false ∧ State.reset.active = false ∧
    (received.active = true ∧ received.tcPend = true ∧ received.rc < received.len ∧ received.sc < received.len) ∧
    (3#16 < received.len) := by decide

/-- A full buffer of one byte. -/
def single : State := { received with len := 1#16, sc := 0#16, buf := [(0, 0x10#8)] }

theorem test_witness_EqualCursorsEchoTheReceivedByte : single.Legal ∧ single.active = true ∧ single.tcPend = true ∧
    single.rc < single.len ∧ single.rc = single.sc ∧ single.bitCnt = 0#3 ∧ single.len = 1#16 := by decide

theorem test_witness_TransferExchangesOneByteInTime : (runOf [.byte 0xAA#8, .dispatchByte]).map RunLabel.decoded =
      (Pseudo.xfer 0xAA#8).expand.map Decoded.instr ∧ inTransaction.Legal ∧ shiftEnabled inTransaction = true ∧
    inTransaction.bitCnt = 0#3 ∧ inTransaction.txValid = true ∧ inTransaction.tcPend = false := by decide

theorem test_witness_OnlyTheCursorLawMovesCursors : received.Legal ∧ received.active = true ∧
    hasStep .dispatchByte received = true ∧ hasStep (.injectEdge true) received = true ∧ hasStep .teardown received = true ∧
    hasStep (.byte 0x00#8) received = true ∧ rising.Legal ∧ hasStep .dispatchEdge rising = true :=
  ⟨by decide, by decide, by decide, by decide, by decide, by decide, by decide, by decide⟩

/-- A SelEntry, then a byte, a late dispatch and an illegal command word, each with free inputs of its own, as one run. -/
theorem test_witness_SendCursorLeadsByOneThroughoutATransaction :
    edgeAfter (.injectEdge true) (between.withInputs live.given 9) = some .selected ∧
    after (takeLabel ⟨.instr (.injectEdge true), live.given, 9⟩ between) (fun s =>
      (everyEvent withinTransaction (history (runOf [.byte 0xAA#8, .sckBit true, .dispatchByte] ++ [⟨.illegalCmd, .unwritten, 4⟩]) s),
        dispatchCount (history (runOf [.byte 0xAA#8, .sckBit true, .dispatchByte] ++ [⟨.illegalCmd, .unwritten, 4⟩]) s),
        (after (runLabels (runOf [.byte 0xAA#8, .sckBit true, .dispatchByte] ++ [⟨.illegalCmd, .unwritten, 4⟩]) s)
          fun t => (t.sc, t.rc)))) =
      some (true, 1, some (2#16, 1#16)) := by decide

theorem test_witness_NextByteOnTheWireIsTheStagedCell : between.bitCnt = 0#3 ∧
    edgeAfter (.injectEdge true) between = some .selected ∧
    after (exec (.injectEdge true) between) (fun t => shiftEnabled t) = some true ∧
    received.bitCnt = 0#3 ∧ shiftEnabled received = true ∧ hasStep .dispatchByte received = true := by decide

theorem test_witness_PendingLastByteDependsOnTheDispatchOrder : falling.Legal ∧ edgeEnabled falling = true ∧
    byteEnabled falling = true ∧ falling.edge = .selected ∧ falling.cns = true := by decide

theorem test_witness_LegalStatesStopOnlyWhereTheSpecDoes : (midByte 1#3 inTransaction).Legal ∧
    whyRefused (exec (.byte 0x00#8) (midByte 1#3 inTransaction)) = some .byteNotAligned ∧
    State.reset.Legal ∧ whyRefused (exec .dispatchEdge State.reset) = some .dispatchEdgeNotEnabled ∧
    whyRefused (exec .dispatchByte State.reset) = some .dispatchByteNotEnabled :=
  ⟨by decide, by decide, by decide, by decide, by decide⟩

/-- The premise of LabelsStepExactlyWhenEnabled, with a label that steps and one that does not. -/
theorem test_witness_LabelsStepExactlyWhenEnabled : received.Legal ∧ hasStep .dispatchByte received = true ∧
    hasStep .dispatchEdge received = false := by decide

theorem test_witness_ErrIsWrittenByCommandsOnly : hasStep (.cfg true true none 1#16) State.reset = true ∧
    hasStep .dispatchByte received = true ∧ (withLabel (.cmd 0x00000000#32) live).labels = [⟨.cmd 0x00000000#32, .unwritten⟩] ∧
    decode (.cmd 0x00000000#32) = .illegalCmd := by decide

theorem test_witness_FailingCommandChangesOnlyErr :
    after (exec (.cfg true true none 1#16) live) (fun t => decide (t.err ≠ 0#4)) = some true ∧
    after (exec (.injectEdge false) State.reset) (fun t => decide (t.err ≠ 0#4)) = some true := by decide

/-- A run of each clause: a step that is no successful CFG, for each cause, and a CFG that succeeds. -/
theorem test_witness_StickyFlagsHaveExactlyTheirCauses :
    (hasStep (.sckBit true) live = true ∧ startsByte (.sckBit true) live = true ∧ live.txValid = false) ∧
    (completesByte (.byte 0x00#8) received = true ∧ received.tcPend = true) ∧
    (stages .dispatchByte (midByte 3#3 received) = true ∧ stageChoice (midByte 3#3 received) = .drop) ∧
    (changesSelect (.ssLevel false) rising = true ∧ rising.ssPend = true) ∧
    cfgSucceeds (.cfg true true none 256#16) State.reset = true ∧ hasStep (.cfg true true none 256#16) State.reset = true ∧
    cfgSucceeds (.cfg true true none 257#16) State.reset = false := by decide

theorem test_witness_OneBitSetsAtMostOneHazardFlag : hasStep (.sckBit true) (midByte 7#3 received) = true := by decide

theorem test_witness_ActiveMovesOnlyByCfgAndTeardown :
    (State.reset.active = false ∧ after (exec (.cfg true true none 1#16) State.reset) (fun t => t.active) = some true) ∧
    (live.active = true ∧ after (exec .teardown live) (fun t => t.active) = some false) ∧
    cfgSucceeds (.cfg true true none 1#16) State.reset = true := by decide

theorem test_witness_StepKeepsTheInvariants : (withLabel (.ev 0x9000#16) received).Legal ∧
    (after (step (withLabel (.ev 0x9000#16) received)) fun t => (t.rc, t.tcPend)) = some (1#16, false) := by decide

theorem test_witness_StepKeepsTheBufferCanonicalAndInside : (withLabel (.ev 0x9000#16) received).Legal ∧
    (withLabel (.ev 0x9000#16) received).BufferOk ∧
    (after (step (withLabel (.ev 0x9000#16) received)) fun t => t.buf.read 0) = some 0xAA#8 := by decide

/-- A cell just above LEN. -/
theorem test_witness_CellsThatAreNotLiveAreNeverWritten : hasStep .dispatchByte received = true ∧
    received.len.toNat ≤ 4 ∧ after (exec .dispatchByte received) (fun t => decide (t.len.toNat ≤ 4)) = some true := by decide

theorem test_witness_BusMasterReachesOnlyLineAndShiftRegister : hasStep (.ssLevel true) pinned = true ∧
    hasStep (.sckBit true) live = true ∧ hasStep (.byte 0x00#8) live = true := by decide

theorem test_witness_TracesAreAppendOnlyAndUnread : hasStep .dispatchEdge falling = true ∧
    hasStep (.byte 0x00#8) inTransaction = true := by decide

theorem test_witness_ExecKeepsParametersAndSchedule : hasStep .teardown (withLabel (.ev 0x2000#16) live) = true := by decide

/-- Two states that differ in SR and in a cell that is not live. -/
theorem test_witness_UnspecifiedContentsCannotBeObserved :
    inTransaction.SameObservable { inTransaction with sr := 0xFF#8, buf := inTransaction.buf ++ [(4, 0x99#8)] } := by
  refine ⟨rfl, by decide, ?_⟩
  decide

/-- The four clauses. -/
theorem test_witness_EveryFreeInputIsAdmitted :
    (shiftEnabled live = true ∧ live.bitCnt = 0#3 ∧ live.txValid = false) ∧
    (shiftEnabled (midByte 7#3 received) = true ∧ (midByte 7#3 received).bitCnt = 7#3 ∧ (midByte 7#3 received).tcPend = true) ∧
    (byteEnabled (midByte 1#3 received) = true ∧ (midByte 1#3 received).rc < (midByte 1#3 received).len ∧
      (midByte 1#3 received).sc < (midByte 1#3 received).len ∧ (midByte 1#3 received).bitCnt ≠ 0#3) ∧
    (between.active = true ∧ between.prd = true ∧ between.edge = .deselected ∧ between.len ≠ 0#16 ∧
      [0x01#8, 0x02#8, 0x03#8, 0x04#8].length = between.len.toNat) := by decide

theorem test_witness_HazardFreeByteIgnoresFreeInputs : inTransaction.bitCnt = 0#3 ∧ inTransaction.txValid = true ∧
    inTransaction.tcPend = false := by decide

/-- A schedule of one label and the three steps it takes, and a legal machine whose schedule is empty. -/
theorem test_witness_EveryRunDrainsItsDispatches : (withLabel (.cmd 0x20000000#32) received).labels.length + 2 ≤ 3 ∧
    (after (runFor 3 (withLabel (.cmd 0x20000000#32) received)) fun t => t.active) = some false ∧
    falling.Legal ∧ falling.labels = [] := by decide

/-- The state right after `cfg len=4, pin=none, prd=1, cns=1` from reset. -/
def cleanStart : State := configured true true 0xFF#8 4#16 State.reset

/-- Two transactions through the test port, a byte and its handler in each. -/
def cleanRun : List RunLabel :=
  runOf [.injectEdge true, .byte 0xAA#8, .dispatchByte, .injectEdge false, .injectEdge true, .byte 0xBB#8, .dispatchByte]

theorem test_witness_CleanRunsRaiseNoHazard : cleanStart.CleanActive 4#16 0xFF#8 true true false ∧
    wellFramed .fresh (history cleanRun cleanStart) = true ∧
    everyEvent handledInTime (history cleanRun cleanStart) = true ∧
    everyEvent edgesSeparated (history cleanRun cleanStart) = true ∧
    after (runLabels cleanRun cleanStart) (fun t => t.consumeTrace) = some [[0xAA#8, 0x22#8, 0x33#8, 0x44#8]] :=
  ⟨by decide, by decide, by decide, by decide, by decide⟩

theorem test_witness_RunsThatStartBytesWhileSelectedRaiseNoHazard :
    everyEvent startsSelected (history cleanRun cleanStart) = true := by decide

/-- R158's conditions one by one: a second byte without its stage, and a byte after a merged `ss 0`, `ss 1`, are not well framed, though EDGE
is SELECTED. -/
theorem test_wellFramed_conditions :
    let unstaged := runOf [.injectEdge true, .byte 0xAA#8, .byte 0xAA#8]
    let merged := runOf [.ssLevel true, .dispatchEdge, .ssLevel false, .ssLevel true, .byte 0xAA#8]
    everyEvent startsSelected (history unstaged cleanStart) = true ∧ wellFramed .fresh (history unstaged cleanStart) = false ∧
    everyEvent startsSelected (history merged { cleanStart with pin := 3#8, selAtt := true }) = true ∧
    wellFramed .fresh (history merged { cleanStart with pin := 3#8, selAtt := true }) = false := by decide

/-- A late stage is no byte's own, though it is the only one since the last byte started: the byte before it was never handled, and the one
it would serve is not well framed. -/
theorem test_wellFramed_lateStage :
    let late := runOf ([.injectEdge true, .byte 0xAA#8, .injectEdge false, .injectEdge true, .sckBit true, .dispatchByte] ++
      List.replicate 7 (.sckBit true))
    wellFramed .fresh (history late cleanStart) = true ∧
    after (runLabels late cleanStart) (fun t => (t.bitCnt, t.txValid, t.wcol, startsByte (.sckBit true) t)) =
      some (0#3, false, true, true) ∧
    wellFramed .fresh (history (late ++ runOf [.sckBit true]) cleanStart) = false := by decide

/-- Log 16: an attached line that falls in mid-byte abandons the byte before DeselEntry runs, and the run is well framed. -/
theorem test_wellFramed_abandonedByte :
    wellFramed .fresh (history (runOf [.ssLevel true, .dispatchEdge, .sckBit true, .ssLevel false, .dispatchEdge])
      { cleanStart with pin := 3#8, selAtt := true }) = true := by decide

/-- A run whose last byte is unhandled when the next transaction starts one. -/
theorem test_witness_WellFramedRunsSendNoStaleByte :
    let es := runOf [.injectEdge true, .byte 0xAA#8, .injectEdge false, .injectEdge true]
    wellFramed .fresh (history (es ++ runOf [.byte 0xBB#8]) cleanStart) = true ∧
    everyEvent handledInTime (history (es ++ runOf [.byte 0xBB#8]) cleanStart) = false ∧
    after (runLabels es cleanStart) (fun t => (t.tcPend, startsByte (.byte 0xBB#8) t)) = some (true, true) := by decide

theorem test_witness_CleanActiveIsRightAfterCfg : cfgSucceeds (.cfg true true none 4#16) State.reset = true ∧
    hasStep (.cfg true true none 4#16) State.reset = true ∧ cleanStart.buf.wf ∧
    cleanStart.CleanActive 4#16 (pinField none) true true false := ⟨by decide, by decide, by decide, by decide⟩

/-- BUF_MAX at the ends of its range. -/
theorem test_witness_LengthsFromOneToCapacityConfigure : State.reset.active = false ∧ State.reset.par.bufMax ≠ 0xFFFF#16 ∧
    (1#16 : Half).toNat ≤ State.reset.par.bufMax.toNat ∧
    (State.powerOn { bufMax := 1#16, bitOrder := .msbFirst } false 0x00#8 []).active = false := by decide

end Sys2Proof.Tests
end

/-! Proofs of the family `00_scope.md`: a step and its label, runs of steps, the free inputs, and the lengths that configure. -/

section
namespace Sys2Proof.Machine

/-! ### No instruction reads the schedule -/

/-- The same state with another schedule left. -/
def State.withLabels (l : List Scheduled) (s : State) : State := { s with labels := l }

/-- Apply `f` to the next state, if there is one. -/
def mapNext (f : State → State) (o : Result) : Result := andThen o fun s => .next (f s)

@[simp] theorem mapNext_next (f : State → State) (s : State) : mapNext f (.next s) = .next (f s) := rfl
@[simp] theorem mapNext_fault (f : State → State) (r : Fault) : mapNext f (.fault r) = .fault r := rfl
@[simp] theorem mapNext_refused (f : State → State) (r : Refusal) : mapNext f (.refused r) = .refused r := rfl

/-- A continuation that commutes with `f` carries `f` past `andThen`. -/
theorem andThen_mapNext {f : State → State} {k : State → Result} (hk : ∀ s, k (f s) = mapNext f (k s)) (o : Result) :
    andThen (mapNext f o) k = mapNext f (andThen o k) := by
  cases o with
  | next s => exact hk s
  | fault r => rfl
  | refused r => rfl

theorem memWrite_withLabels (l : List Scheduled) (i : Nat) (v : Byte) (s : State) :
    memWrite i v (s.withLabels l) = mapNext (State.withLabels l) (memWrite i v s) := by
  by_cases h : i < s.len.toNat
  · rw [memWrite_live v h]; exact memWrite_live v h
  · simp [memWrite, State.withLabels, h]

theorem stageNext_withLabels (l : List Scheduled) (s : State) :
    stageNext (s.withLabels l) = mapNext (State.withLabels l) (stageNext s) := by
  by_cases h : s.sc.toNat < s.len.toNat
  · rw [stageNext_live h, stageNext_live (s := s.withLabels l) h, stage_eq, stage_eq]; rfl
  · simp [stageNext, memRead, State.withLabels, h]

theorem selEntry_withLabels (l : List Scheduled) (s : State) :
    selEntry (s.withLabels l) = mapNext (State.withLabels l) (selEntry s) := by
  unfold selEntry
  rw [← stageNext_withLabels]
  exact congrArg stageNext (apply_ite (State.withLabels l) (s.prd = true) (produce (resetCursors s)) (resetCursors s)).symm

theorem edgeBody_withLabels (lvl : Bool) (l : List Scheduled) (s : State) :
    edgeBody lvl (s.withLabels l) = mapNext (State.withLabels l) (edgeBody lvl s) := by
  by_cases h : nextEdge s.edge lvl = .selected
  · simp only [edgeBody, State.withLabels, h, if_true]
    exact selEntry_withLabels l { s with edge := .selected }
  · simp only [edgeBody, State.withLabels, if_neg h, mapNext_next, deselEntry_eq]
    rfl

theorem clockBit_withLabels (b : Bool) (l : List Scheduled) (s : State) :
    clockBit b (s.withLabels l) = (clockBit b s).withLabels l := by
  cases h : shiftEnabled s
  · rw [clockBit_disabled b h, clockBit_disabled (s := s.withLabels l) b h]; rfl
  · rw [clockBit_enabled b h, clockBit_enabled (s := s.withLabels l) b h]; rfl

theorem execCfg_withLabels (prd cns : Bool) (pin : Option Byte) (len : Half) (l : List Scheduled) (s : State) :
    execCfg prd cns pin len (s.withLabels l) = mapNext (State.withLabels l) (execCfg prd cns pin len s) := by
  unfold execCfg
  simp only [apply_ite (mapNext (State.withLabels l))]
  rfl

theorem execByte_withLabels (m : Byte) (l : List Scheduled) (s : State) :
    execByte m (s.withLabels l) = mapNext (State.withLabels l) (execByte m s) := by
  unfold execByte
  simp only [apply_ite (mapNext (State.withLabels l)), mapNext_next, mapNext_refused]
  rw [← List.foldl_hom (g₂ := fun t b => clockBit b t) (State.withLabels l) fun t b => clockBit_withLabels b l t]
  rfl

theorem execDispatchByte_withLabels (l : List Scheduled) (s : State) :
    execDispatchByte (s.withLabels l) = mapNext (State.withLabels l) (execDispatchByte s) := by
  unfold execDispatchByte
  simp only [apply_ite (mapNext (State.withLabels l))]
  rw [← andThen_mapNext fun t => stageNext_withLabels l (advanceRc t), ← memWrite_withLabels]
  rfl

/-- No instruction reads or writes the schedule (log 5). -/
theorem exec_withLabels (i : Instr) (l : List Scheduled) (s : State) :
    exec i (s.withLabels l) = mapNext (State.withLabels l) (exec i s) := by
  cases i with
  | cfg prd cns pin len => exact execCfg_withLabels prd cns pin len l s
  | teardown => rfl
  | injectEdge lvl =>
    simp only [exec, execInjectEdge, apply_ite (mapNext (State.withLabels l)), ← edgeBody_withLabels]
    rfl
  | ssLevel v => simp only [exec, execSsLevel_eq]; rfl
  | sckBit b => exact congrArg Host.Outcome.next (clockBit_withLabels b l s)
  | byte m => exact execByte_withLabels m l s
  | rd idx => rfl
  | dispatchEdge =>
    simp only [exec, execDispatchEdge, apply_ite (mapNext (State.withLabels l)), ← edgeBody_withLabels]
    rfl
  | dispatchByte => exact execDispatchByte_withLabels l s

/-! ### A step is the label it takes, and a run of steps is the run of those labels -/

theorem takeLabel_withLabels (e : RunLabel) (l : List Scheduled) (s : State) :
    takeLabel e (s.withLabels l) = mapNext (State.withLabels l) (takeLabel e s) := by
  cases hd : e.decoded with
  | instr i => simp only [takeLabel, hd]; exact exec_withLabels i l (e.start s)
  | illegalCmd => simp only [takeLabel, hd]; rfl
  | reservedEvent => simp only [takeLabel, hd]; rfl

theorem runLabels_withLabels (es : List RunLabel) (l : List Scheduled) (s : State) :
    runLabels es (s.withLabels l) = mapNext (State.withLabels l) (runLabels es s) := by
  induction es generalizing s with
  | nil => rfl
  | cons e es ih => rw [runLabels, takeLabel_withLabels, andThen_mapNext ih]; rfl

/-- With a label scheduled, a step takes it. -/
theorem step_scheduled {s : State} {x : Scheduled} {rest : List Scheduled} (h : s.labels = x :: rest) :
    step s = takeLabel ⟨decode x.label, x.free, s.drawNo + 1⟩ (s.withLabels rest) := by
  cases hd : decode x.label <;> simp only [step, fetch, takeLabel, h, hd] <;> rfl

/-- A step takes the next label and leaves the rest of the schedule. -/
theorem step_of_nextLabel {s : State} {e : RunLabel} (h : nextLabel s = some e) :
    step s = mapNext (State.withLabels s.labels.tail) (takeLabel e s) := by
  rw [← takeLabel_withLabels]
  cases hl : s.labels with
  | cons x rest =>
    rw [nextLabel, hl] at h
    cases h
    exact step_scheduled hl
  | nil =>
    rw [nextLabel, hl] at h
    obtain ⟨i, hi, rfl⟩ := Option.map_eq_some_iff.1 h
    simp only [step, fetch, hl, hi]
    rfl

/-- A machine with no next label stays as it is. -/
theorem step_of_nextLabel_none {s : State} (h : nextLabel s = none) : step s = .next s := by
  cases hl : s.labels with
  | cons x rest => simp [nextLabel, hl] at h
  | nil =>
    simp only [nextLabel, hl, Option.map_eq_none_iff] at h
    simp only [step, fetch, hl, h]

theorem runFor_of_nextLabel_none {s : State} (h : nextLabel s = none) (k : Nat) : runFor k s = .next s := by
  induction k with
  | zero => rfl
  | succ k ih => rw [runFor, step_of_nextLabel_none h]; exact ih

theorem takenLabels_of_nextLabel_none {s : State} (h : nextLabel s = none) (k : Nat) : takenLabels k s = [] := by
  cases k with
  | zero => rfl
  | succ k => simp only [takenLabels, h]

/-- Steps and the labels they take end alike once the schedules left are made equal. -/
theorem mapNext_runLabels_takenLabels (k : Nat) (l : List Scheduled) (s : State) :
    mapNext (State.withLabels l) (runLabels (takenLabels k s) s) = mapNext (State.withLabels l) (runFor k s) := by
  induction k generalizing s with
  | zero => rfl
  | succ k ih =>
    cases hn : nextLabel s with
    | none => rw [runFor_of_nextLabel_none hn, takenLabels_of_nextLabel_none hn]; rfl
    | some e =>
      have hstep := step_of_nextLabel hn
      cases ht : takeLabel e s with
      | fault r => rw [ht] at hstep; simp [takenLabels, runFor, runLabels, hn, hstep, ht]
      | refused r => rw [ht] at hstep; simp [takenLabels, runFor, runLabels, hn, hstep, ht]
      | next u =>
        rw [ht, mapNext_next] at hstep
        have hrest := ih (u.withLabels s.labels.tail)
        rw [runLabels_withLabels] at hrest
        simp only [takenLabels, runFor, runLabels, hn, hstep, ht, andThen_next, ← hrest]
        cases runLabels (takenLabels k (u.withLabels s.labels.tail)) u <;> rfl

/-- Outcomes that agree once their schedules are made equal differ in the schedule at most. -/
theorem related_of_mapNext_withLabels_eq {l : List Scheduled} {o p : Result}
    (h : mapNext (State.withLabels l) o = mapNext (State.withLabels l) p) :
    Result.Related (fun t u => u = { t with labels := u.labels }) o p := by
  cases o <;> cases p
  case next.next s t =>
    have hst : s.withLabels l = t.withLabels l := Host.Outcome.next.inj h
    exact (congrArg (State.withLabels t.labels) hst).symm
  case fault.fault q r => exact Host.Outcome.fault.inj h
  case refused.refused q r => exact Host.Outcome.refused.inj h
  all_goals cases h

/-- Settles O9, by induction on the steps: no instruction reads the schedule, so the labels taken run alike under any. -/
theorem stepsRunTheLabelsTheyTake : Obligations.StepsRunTheLabelsTheyTake := by
  unfold Obligations.StepsRunTheLabelsTheyTake
  intro k s
  exact related_of_mapNext_withLabels_eq (mapNext_runLabels_takenLabels k [] s)

/-- Settles O8: the scheduled label is the one the step takes. -/
theorem stepRunsTheDecodedInstruction : Obligations.StepRunsTheDecodedInstruction := by
  unfold Obligations.StepRunsTheDecodedInstruction
  intro s l free rest i hl hd
  rw [step_scheduled hl, takeLabel, hd]
  rfl

/-! ### Which lengths configure -/

/-- CFG succeeds on a core that is not active, for a length that is neither 0 nor above BUF_MAX (R80). -/
theorem execCfg_configures {s : State} {len : Half} (prd cns : Bool) (pin : Option Byte) (ha : s.active = false)
    (hl : len ≠ 0#16) (hb : len ≤ s.par.bufMax) :
    execCfg prd cns pin len s = .next (configured prd cns (pinField pin) len s) := by
  simp [execCfg, ha, hl, BitVec.not_lt.2 hb]

/-- CFG changes ERR only, to NO_RESOURCE, for a length above BUF_MAX (R80). -/
theorem execCfg_noResource {s : State} {len : Half} (prd cns : Bool) (pin : Option Byte) (ha : s.active = false)
    (hl : len ≠ 0#16) (hb : s.par.bufMax < len) : execCfg prd cns pin len s = .next (setErr .noResource s) := by
  simp [execCfg, failCmd, ha, hl, hb]

/-- Settles O12: BUF_MAX is at least 1 by the type of the parameters, so 1 and BUF_MAX are among the lengths that configure. -/
theorem lengthsFromOneToCapacityConfigure : Obligations.LengthsFromOneToCapacityConfigure := by
  unfold Obligations.LengthsFromOneToCapacityConfigure
  intro prd cns pin s ha
  have hpos : 1 ≤ s.par.bufMax.toNat := by simpa [BitVec.le_def] using s.par.bufMax_pos
  have between : ∀ len : Half, 1 ≤ len.toNat → len.toNat ≤ s.par.bufMax.toNat →
      ∃ t, exec (.cfg prd cns pin len) s = .next t ∧ t.active = true ∧ t.len = len ∧ t.err = 0#4 := by
    intro len h1 h2
    have hl : len ≠ 0#16 := by rintro rfl; simp at h1
    exact ⟨_, execCfg_configures prd cns pin ha hl (BitVec.le_def.2 h2), rfl, rfl, rfl⟩
  refine ⟨between _ (by decide) hpos, between _ hpos le_rfl, between, fun hmax => ?_⟩
  have habove : s.par.bufMax < s.par.bufMax + 1#16 := by bv_omega
  have hl : s.par.bufMax + 1#16 ≠ 0#16 := by bv_omega
  exact execCfg_noResource prd cns pin ha hl habove

/-! ### A whole byte on the wire -/

/-- The bits SR presents while the bits of a list are shifted in. -/
def bitsOut (o : BitOrder) : Byte → List Bool → List Bool
  | _, [] => []
  | r, b :: bs => outBit o r :: bitsOut o (shiftIn o r b) bs

theorem bitsOut_append (o : BitOrder) (r : Byte) (bs cs : List Bool) :
    bitsOut o r (bs ++ cs) = bitsOut o r bs ++ bitsOut o (bs.foldl (shiftIn o) r) cs := by
  induction bs generalizing r with
  | nil => rfl
  | cons b bs ih => simp [bitsOut, ih]

theorem getLsbD_shiftIn_msbFirst (r : Byte) (b : Bool) (i : Nat) (hi : i < 8) :
    (shiftIn .msbFirst r b).getLsbD i = if i = 0 then b else r.getLsbD (i - 1) := by
  refine BitVec.getLsbD_append.trans ?_
  cases i with
  | zero => simp
  | succ i =>
    have h : i < 7 := by omega
    simp [h]

theorem getLsbD_shiftIn_lsbFirst (r : Byte) (b : Bool) (i : Nat) (hi : i < 8) :
    (shiftIn .lsbFirst r b).getLsbD i = if i = 7 then b else r.getLsbD (i + 1) := by
  refine BitVec.getLsbD_append.trans ?_
  by_cases h : i = 7
  · simp [h]
  · have h7 : i < 7 := by omega
    simp [h, h7, Nat.add_comm]

/-- Eight bits shifted in are the byte, in either order. -/
theorem foldl_shiftIn_wireBits (o : BitOrder) (r m : Byte) : (wireBits o m).foldl (shiftIn o) r = m := by
  refine BitVec.eq_of_getLsbD_eq fun i hi => ?_
  cases o <;> interval_cases i <;>
    simp only [wireBits, List.foldl, getLsbD_shiftIn_msbFirst, getLsbD_shiftIn_lsbFirst, Nat.reduceLT, Nat.reduceSub,
      Nat.reduceAdd, Nat.reduceEqDiff, reduceIte]

/-- While any byte is shifted in, SR presents the byte it held, in the same order. -/
theorem bitsOut_wireBits (o : BitOrder) (r m : Byte) : bitsOut o r (wireBits o m) = wireBits o r := by
  cases o <;>
    simp only [wireBits, bitsOut, outBit, getLsbD_shiftIn_msbFirst, getLsbD_shiftIn_lsbFirst, Nat.reduceLT,
      Nat.reduceSub, Nat.reduceAdd, Nat.reduceEqDiff, reduceIte]

/-- The byte the first bit loads into SR (R108). -/
def loadedByte (s : State) : Byte := if s.txValid then s.txReg else staleByte s

/-- The first bit of a byte, as one update. -/
theorem clockBit_first {s : State} (b : Bool) (he : shiftEnabled s = true) (h0 : s.bitCnt = 0#3) :
    clockBit b s = { s with
      sr := shiftIn s.par.bitOrder (loadedByte s) b
      misoTrace := s.misoTrace ++ [.bit (outBit s.par.bitOrder (loadedByte s))]
      txValid := false
      staleTx := s.staleTx || !s.txValid
      bitCnt := 1#3 } := by
  simp [clockBit_enabled b he, shiftSource, loadedByte, h0]

/-- A bit between the first and the last, as one update. -/
theorem clockBit_middle {s : State} (b : Bool) (he : shiftEnabled s = true) (h0 : s.bitCnt ≠ 0#3) (h7 : s.bitCnt ≠ 7#3) :
    clockBit b s = { s with
      sr := shiftIn s.par.bitOrder s.sr b
      misoTrace := s.misoTrace ++ [.bit (outBit s.par.bitOrder s.sr)]
      bitCnt := s.bitCnt + 1#3 } := by
  simp [clockBit_enabled b he, shiftSource, h0, h7]

/-- The last bit of a byte, as one update. -/
theorem clockBit_last {s : State} (b : Bool) (he : shiftEnabled s = true) (h7 : s.bitCnt = 7#3) :
    clockBit b s = { s with
      sr := shiftIn s.par.bitOrder s.sr b
      misoTrace := s.misoTrace ++ [.bit (outBit s.par.bitOrder s.sr)]
      bitCnt := 0#3
      rxReg := if s.tcPend then overrunByte s else shiftIn s.par.bitOrder s.sr b
      tcPend := true
      overrun := s.overrun || s.tcPend } := by
  simp [clockBit_enabled b he, shiftSource, h7]

/-- Several bits between the first and the last, as one update. -/
theorem clockBits_middle (bs : List Bool) {s : State} (he : shiftEnabled s = true) (h0 : s.bitCnt ≠ 0#3)
    (hn : s.bitCnt.toNat + bs.length ≤ 7) :
    bs.foldl (fun t b => clockBit b t) s = { s with
      sr := bs.foldl (shiftIn s.par.bitOrder) s.sr
      misoTrace := s.misoTrace ++ (bitsOut s.par.bitOrder s.sr bs).map Miso.bit
      bitCnt := s.bitCnt + BitVec.ofNat 3 bs.length } := by
  induction bs generalizing s with
  | nil => simp [bitsOut]
  | cons b bs ih =>
    rw [List.length_cons] at hn
    have h7 : s.bitCnt ≠ 7#3 := by bv_omega
    rw [List.foldl_cons, clockBit_middle b he h0 h7, ih (by exact he) (by bv_omega) (by bv_omega)]
    simp [bitsOut, BitVec.add_assoc, BitVec.ofNat_add, BitVec.add_comm 1#3]

/-- A byte is a first bit, six in the middle, and a last one. -/
theorem wireBits_split (o : BitOrder) (m : Byte) : ∃ b bs c, wireBits o m = b :: (bs ++ [c]) ∧ bs.length = 6 := by
  cases o <;> exact ⟨_, [_, _, _, _, _, _], _, rfl, rfl⟩

/-- BYTE while shift is enabled, as one update (R109). -/
theorem execByte_enabled {s : State} (m : Byte) (he : shiftEnabled s = true) (h0 : s.bitCnt = 0#3) :
    execByte m s = .next { s with
      sr := m
      misoTrace := s.misoTrace ++ (wireBits s.par.bitOrder (loadedByte s)).map Miso.bit
      txValid := false
      staleTx := s.staleTx || !s.txValid
      rxReg := if s.tcPend then overrunByte s else m
      tcPend := true
      overrun := s.overrun || s.tcPend } := by
  have hin := foldl_shiftIn_wireBits s.par.bitOrder (loadedByte s) m
  have hout := bitsOut_wireBits s.par.bitOrder (loadedByte s) m
  obtain ⟨b, bs, c, hw, hlen⟩ := wireBits_split s.par.bitOrder m
  simp only [hw, List.foldl_cons, List.foldl_append, List.foldl_nil, bitsOut, bitsOut_append] at hin hout
  rw [execByte, if_pos h0, hw, List.foldl_cons, List.foldl_append, clockBit_first b he h0,
    clockBits_middle bs (by exact he) (by simp) (by simp [hlen]), List.foldl_cons, List.foldl_nil,
    clockBit_last c (by exact he) (by simp [hlen])]
  simp [← hout, hin, h0, overrunByte]

/-! ### The free inputs -/

/-- The cells a fill writes read back as what it writes. -/
theorem Memory.map_read_fill (m : Memory) (n : Nat) (f : Nat → Byte) :
    (List.range n).map (m.fill n f).read = (List.range n).map f :=
  List.map_congr_left fun a ha => by simp [List.mem_range.1 ha]

/-- `P`: an answer as long as the buffer is used whole; no cell falls to a free value (R95, log 9). -/
theorem map_producedByte {s : State} {p : List Byte} (hg : s.given.produced = some p) :
    (List.range p.length).map (producedByte s) = p := by
  refine List.ext_getElem (by simp) fun i _ hi => ?_
  simp [producedByte, hg, hi]

/-- Settles O51: a free input written with the label is the value it takes, so each clause writes the one it wants. -/
theorem everyFreeInputIsAdmitted : Obligations.EveryFreeInputIsAdmitted := by
  unfold Obligations.EveryFreeInputIsAdmitted
  refine ⟨fun s m x he h0 hv => ?stale, fun s b x he h7 hp => ?overrun, fun s he hr hs h0 => ⟨?take, ?drop⟩,
    fun s p ha hp hedge hl hlen => ?answer⟩
  case stale =>
    refine ⟨⟨none, none, some x, none⟩, _, execByte_enabled m (by exact he) h0, ?_⟩
    simp [loadedByte, hv, staleByte]
  case overrun =>
    refine ⟨⟨none, none, none, some x⟩, _, congrArg Host.Outcome.next (clockBit_last b (by exact he) h7), ?_⟩
    simp [hp, overrunByte]
  case take =>
    refine ⟨⟨none, some .take, none, none⟩, _, execDispatchByte_live he hr hs, ?_⟩
    simp [stage_eq, stageChoice]
  case drop =>
    refine ⟨⟨none, some .drop, none, none⟩, _, execDispatchByte_live he hr hs, ?_⟩
    simp [stage_eq, stageChoice, h0]
  case answer =>
    refine ⟨⟨some p, none, none, none⟩, _,
      (if_pos ha).trans (edgeBody_selected (by simp [nextEdge, hedge]) hl), ?_⟩
    simp only [selected_buf, selBuffer, setErr_prd, hp, if_true, setErr_len, Memory.map_read_fill]
    rw [← hlen]
    exact map_producedByte rfl

end Sys2Proof.Machine
end

/-! Proofs of the family `10_state.md`: what an instruction answers, the invariants of R41, the buffer, ERR, the sticky flags, ACTIVE, the
traces, and the fields of the registers. -/

section
namespace Sys2Proof.Machine

/-! ### What an instruction answers, said once -/

/-- The state after TEARDOWN (R81). -/
def tornDown (s : State) : State :=
  { s with
    selAtt := false, ssPend := false, tcPend := false, active := false, len := 0#16, rc := 0#16, sc := 0#16, prd := false,
    cns := false, pin := Config.pinSentinel, edge := .unknown, bitCnt := 0#3, txValid := false, err := errCode .ok }

theorem execTeardown_eq (s : State) : execTeardown s = .next (tornDown s) := rfl

/-- Bits clocked while shift is disabled present Z and do nothing else. -/
theorem clockBits_disabled (bs : List Bool) {s : State} (h : shiftEnabled s = false) :
    bs.foldl (fun t b => clockBit b t) s =
      { s with misoTrace := s.misoTrace ++ List.replicate bs.length .z } := by
  induction bs generalizing s with
  | nil => simp
  | cons b bs ih =>
    rw [List.foldl_cons, clockBit_disabled b h, ih (by exact h)]
    simp [emitMiso, List.replicate_succ]

/-- BYTE while shift is disabled presents eight Z (R109, R107). -/
theorem execByte_disabled {s : State} (m : Byte) (h : shiftEnabled s = false) (h0 : s.bitCnt = 0#3) :
    execByte m s = .next { s with misoTrace := s.misoTrace ++ List.replicate 8 .z } := by
  have hlen : (wireBits s.par.bitOrder m).length = 8 := by cases s.par.bitOrder <;> rfl
  rw [execByte, if_pos h0, clockBits_disabled _ h, hlen]

/-- `Answer s i t`: from `s`, instruction `i` answers the next state `t`. One constructor for each branch of each meaning. -/
inductive Answer (s : State) : Instr → State → Prop where
  | cfgAlreadyActive {prd cns : Bool} {pin : Option Byte} {len : Half} (active : s.active = true) :
    Answer s (.cfg prd cns pin len) (setErr .alreadyActive s)
  | cfgZeroLength {prd cns : Bool} {pin : Option Byte} (inactive : s.active = false) :
    Answer s (.cfg prd cns pin 0#16) (setErr .zeroLength s)
  | cfgNoResource {prd cns : Bool} {pin : Option Byte} {len : Half} (inactive : s.active = false) (pos : len ≠ 0#16)
    (above : s.par.bufMax < len) : Answer s (.cfg prd cns pin len) (setErr .noResource s)
  | cfgConfigures {prd cns : Bool} {pin : Option Byte} {len : Half} (inactive : s.active = false) (pos : len ≠ 0#16)
    (fits : len ≤ s.par.bufMax) : Answer s (.cfg prd cns pin len) (configured prd cns (pinField pin) len s)
  | teardown : Answer s .teardown (tornDown s)
  | injectNotActive {lvl : Bool} (inactive : s.active = false) : Answer s (.injectEdge lvl) (setErr .notActive s)
  | injectSelects {lvl : Bool} (active : s.active = true) (enters : nextEdge s.edge lvl = .selected) (pos : s.len ≠ 0#16) :
    Answer s (.injectEdge lvl) (selected { setErr .ok s with edge := .selected })
  | injectDeselects {lvl : Bool} (active : s.active = true) (enters : nextEdge s.edge lvl = .deselected) :
    Answer s (.injectEdge lvl) (deselEntry { setErr .ok s with edge := .deselected })
  | ssLevel {v : Bool} : Answer s (.ssLevel v) { s with
      ssIn := v
      ssPend := s.ssPend || (decide (v ≠ s.ssIn) && s.selAtt)
      edgeLost := s.edgeLost || (decide (v ≠ s.ssIn) && s.selAtt && s.ssPend)
      bitCnt := if v = false ∧ v ≠ s.ssIn ∧ s.selAtt = true then 0#3 else s.bitCnt }
  | bitNotDriven {b : Bool} (disabled : shiftEnabled s = false) : Answer s (.sckBit b) (emitMiso .z s)
  | bitShifted {b : Bool} (enabled : shiftEnabled s = true) : Answer s (.sckBit b) { s with
      sr := shiftIn s.par.bitOrder (shiftSource s) b
      misoTrace := s.misoTrace ++ [.bit (outBit s.par.bitOrder (shiftSource s))]
      txValid := decide (s.bitCnt ≠ 0#3) && s.txValid
      staleTx := s.staleTx || (decide (s.bitCnt = 0#3) && !s.txValid)
      bitCnt := s.bitCnt + 1#3
      rxReg := if s.bitCnt = 7#3 then
          (if s.tcPend then overrunByte s else shiftIn s.par.bitOrder (shiftSource s) b) else s.rxReg
      tcPend := s.tcPend || decide (s.bitCnt = 7#3)
      overrun := s.overrun || (decide (s.bitCnt = 7#3) && s.tcPend) }
  | byteNotDriven {m : Byte} (disabled : shiftEnabled s = false) (aligned : s.bitCnt = 0#3) :
    Answer s (.byte m) { s with misoTrace := s.misoTrace ++ List.replicate 8 .z }
  | byteShifted {m : Byte} (enabled : shiftEnabled s = true) (aligned : s.bitCnt = 0#3) : Answer s (.byte m) { s with
      sr := m
      misoTrace := s.misoTrace ++ (wireBits s.par.bitOrder (loadedByte s)).map Miso.bit
      txValid := false
      staleTx := s.staleTx || !s.txValid
      rxReg := if s.tcPend then overrunByte s else m
      tcPend := true
      overrun := s.overrun || s.tcPend }
  | rd {idx : BitVec 4} : Answer s (.rd idx) (emitRd idx s)
  | dispatchSelects (enabled : edgeEnabled s = true) (enters : nextEdge s.edge s.ssIn = .selected) (pos : s.len ≠ 0#16) :
    Answer s .dispatchEdge (selected { s with ssPend := false, edge := .selected })
  | dispatchDeselects (enabled : edgeEnabled s = true) (enters : nextEdge s.edge s.ssIn = .deselected) :
    Answer s .dispatchEdge (deselEntry { s with ssPend := false, edge := .deselected })
  | dispatchByte (enabled : byteEnabled s = true) (rcLive : s.rc.toNat < s.len.toNat) (scLive : s.sc.toNat < s.len.toNat) :
    Answer s .dispatchByte (stage ((s.buf.write s.rc.toNat s.rxReg).read s.sc.toNat) { s with
      tcPend := false
      buf := s.buf.write s.rc.toNat s.rxReg
      rc := nextCursor s.rc s.len
      sc := nextCursor s.sc s.len })

/-- Every next state of an instruction is one of these answers. -/
theorem answer_of_exec {i : Instr} {s t : State} (h : exec i s = .next t) : Answer s i t := by
  cases i with
  | cfg prd cns pin len =>
    obtain ⟨ha, rfl⟩ | ⟨ha, rfl, rfl⟩ | ⟨ha, hl, hb, rfl⟩ | ⟨ha, hl, hb, rfl⟩ := execCfg_next h
    · exact .cfgAlreadyActive ha
    · exact .cfgZeroLength ha
    · exact .cfgNoResource ha hl hb
    · exact .cfgConfigures ha hl (BitVec.not_lt.1 hb)
  | teardown => cases (execTeardown_eq s).symm.trans h; exact .teardown
  | injectEdge lvl =>
    obtain ⟨ha, rfl⟩ | ⟨ha, hn, hl, rfl⟩ | ⟨ha, hn, rfl⟩ := execInjectEdge_next h
    · exact .injectNotActive ha
    · exact .injectSelects ha hn hl
    · exact .injectDeselects ha hn
  | ssLevel v => cases (execSsLevel_eq v s).symm.trans h; exact .ssLevel
  | sckBit b =>
    cases h
    cases he : shiftEnabled s
    · rw [clockBit_disabled b he]; exact .bitNotDriven he
    · rw [clockBit_enabled b he]; exact .bitShifted he
  | byte m =>
    obtain ⟨h0, -⟩ := execByte_next h
    cases he : shiftEnabled s
    · cases (execByte_disabled m he h0).symm.trans h; exact .byteNotDriven he h0
    · cases (execByte_enabled m he h0).symm.trans h; exact .byteShifted he h0
  | rd idx => cases h; exact .rd
  | dispatchEdge =>
    obtain ⟨he, ⟨hn, hl, rfl⟩ | ⟨hn, rfl⟩⟩ := execDispatchEdge_next h
    · exact .dispatchSelects he hn hl
    · exact .dispatchDeselects he hn
  | dispatchByte =>
    obtain ⟨he, hr, hs, rfl⟩ := execDispatchByte_next h
    exact .dispatchByte he hr hs

/-- Every answer is the next state of its instruction. -/
theorem Answer.exec_eq {i : Instr} {s t : State} (h : Answer s i t) : exec i s = .next t := by
  cases h with
  | cfgAlreadyActive ha => simp [exec, execCfg, failCmd, ha]
  | cfgZeroLength ha => simp [exec, execCfg, failCmd, ha]
  | cfgNoResource ha hl hb => exact execCfg_noResource _ _ _ ha hl hb
  | cfgConfigures ha hl hb => exact execCfg_configures _ _ _ ha hl hb
  | teardown => exact execTeardown_eq s
  | injectNotActive ha => simp [exec, execInjectEdge, failCmd, ha]
  | injectSelects ha hn hl => exact (if_pos ha).trans (edgeBody_selected hn hl)
  | injectDeselects ha hn => exact (if_pos ha).trans (edgeBody_deselected hn)
  | ssLevel => exact execSsLevel_eq _ s
  | bitNotDriven he => exact congrArg Host.Outcome.next (clockBit_disabled _ he)
  | bitShifted he => exact congrArg Host.Outcome.next (clockBit_enabled _ he)
  | byteNotDriven he h0 => exact execByte_disabled _ he h0
  | byteShifted he h0 => exact execByte_enabled _ he h0
  | rd => rfl
  | dispatchSelects he hn hl => exact (if_pos he).trans (edgeBody_selected hn hl)
  | dispatchDeselects he hn => exact (if_pos he).trans (edgeBody_deselected hn)
  | dispatchByte he hr hs => exact execDispatchByte_live he hr hs

/-! ### What every step keeps -/

/-- What the schedule, the free inputs and an illegal command word leave alone, and every instruction keeps, every step keeps. -/
theorem step_keeps {Inv : State → Prop}
    (labels : ∀ (l : List Scheduled) (s : State), Inv s → Inv (s.withLabels l))
    (inputs : ∀ (g : FreeInputs) (n : Nat) (s : State), Inv s → Inv (s.withInputs g n))
    (illegal : ∀ s : State, Inv s → Inv (setErr .illegalCmd s))
    (instr : ∀ {i : Instr} {s t : State}, Inv s → Answer s i t → Inv t)
    {s t : State} (hs : Inv s) (h : step s = .next t) : Inv t := by
  cases hn : nextLabel s with
  | none => cases (step_of_nextLabel_none hn).symm.trans h; exact hs
  | some e =>
    obtain ⟨u, hu, hk⟩ := andThen_eq_next ((step_of_nextLabel hn).symm.trans h)
    cases hk
    refine labels _ _ ?_
    rcases takeLabel_next hu with ⟨i, -, hx⟩ | ⟨-, rfl⟩
    · exact instr (inputs _ _ _ hs) (answer_of_exec hx)
    · exact illegal _ (inputs _ _ _ hs)

/-! ### Legal states -/

theorem edgeCode_ne_reserved (e : Edge) : edgeCode e ≠ 0b11#2 := by cases e <;> decide

/-- R41 for an active core. -/
theorem State.legal_iff_of_active {s : State} (ha : s.active = true) : s.Legal ↔
    (1#16 ≤ s.len ∧ s.len ≤ s.par.bufMax ∧ s.rc < s.len ∧ s.sc < s.len) ∧
      (s.selAtt = true → s.pin ≠ Config.pinSentinel) := by
  simp [State.Legal, ha, edgeCode_ne_reserved]

/-- R41 for a core that is not active: everything is empty. -/
theorem State.legal_iff_of_inactive {s : State} (ha : s.active = false) : s.Legal ↔
    s.len = 0#16 ∧ s.rc = 0#16 ∧ s.sc = 0#16 ∧ s.prd = false ∧ s.cns = false ∧ s.selAtt = false ∧ s.ssPend = false ∧
      s.tcPend = false ∧ s.bitCnt = 0#3 ∧ s.edge = .unknown := by
  simp +contextual [State.Legal, ha, edgeCode_ne_reserved]

/-- A cursor that is advanced stays below the length. -/
theorem nextCursor_lt (a : Half) {n : Half} (h : 1#16 ≤ n) : nextCursor a n < n := by
  have hn : n ≠ 0#16 := by rintro rfl; simp at h
  rw [BitVec.lt_def, nextCursor_toNat a hn]
  exact Nat.mod_lt _ (BitVec.le_def.1 h)

theorem active_of_shiftEnabled {s : State} (h : shiftEnabled s = true) : s.active = true :=
  (Bool.and_eq_true_iff.1 h).1

theorem active_of_edgeEnabled {s : State} (h : edgeEnabled s = true) : s.active = true :=
  (Bool.and_eq_true_iff.1 (Bool.and_eq_true_iff.1 h).1).1

theorem active_of_byteEnabled {s : State} (h : byteEnabled s = true) : s.active = true :=
  (Bool.and_eq_true_iff.1 h).1

/-- While a core is active, R41 speaks of its configuration and its cursors only. -/
theorem State.Legal.of_active {s t : State} (hs : s.Legal) (ha : s.active = true)
    (h : (t.active, t.par, t.len, t.rc, t.sc, t.selAtt, t.pin) = (s.active, s.par, s.len, s.rc, s.sc, s.selAtt, s.pin)) :
    t.Legal := by
  simp only [Prod.mk.injEq] at h
  obtain ⟨hact, hpar, hlen, hrc, hsc, hatt, hpin⟩ := h
  rw [State.legal_iff_of_active ha] at hs
  rw [State.legal_iff_of_active (hact.trans ha), hpar, hlen, hrc, hsc, hatt, hpin]
  exact hs

/-- SelEntry puts RC at 0 and SC below LEN (R93). -/
theorem selected_legal {s : State} (hs : s.Legal) (ha : s.active = true) : (selected s).Legal := by
  rw [State.legal_iff_of_active ha] at hs
  obtain ⟨⟨h1, hb, -, -⟩, hp⟩ := hs
  rw [State.legal_iff_of_active (by simpa using ha)]
  simp only [selected_len, selected_par, selected_rc, selected_sc, selected_selAtt, selected_pin]
  exact ⟨⟨h1, hb, by bv_omega, nextCursor_lt _ h1⟩, hp⟩

theorem deselEntry_legal {s : State} (hs : s.Legal) : (deselEntry s).Legal := by rw [deselEntry_eq]; exact hs

/-- Every answer from a legal state is legal. -/
theorem Answer.legal {i : Instr} {s t : State} (hs : s.Legal) (h : Answer s i t) : t.Legal := by
  cases h with
  | cfgAlreadyActive | cfgZeroLength | cfgNoResource | injectNotActive | bitNotDriven | byteNotDriven | rd => exact hs
  | cfgConfigures ha hl hb =>
    rw [State.legal_iff_of_active rfl]
    simp only [configured, decide_eq_true_eq]
    exact ⟨⟨by bv_omega, hb, by bv_omega, by bv_omega⟩, id⟩
  | teardown => exact (State.legal_iff_of_inactive rfl).2 ⟨rfl, rfl, rfl, rfl, rfl, rfl, rfl, rfl, rfl, rfl⟩
  | injectSelects ha => exact selected_legal (hs.of_active ha rfl) ha
  | injectDeselects ha => exact deselEntry_legal (hs.of_active ha rfl)
  | ssLevel =>
    cases ha : s.active with
    | true => exact hs.of_active ha (by rw [ha])
    | false =>
      rw [State.legal_iff_of_inactive ha] at hs
      rw [State.legal_iff_of_inactive rfl]
      simp [hs]
  | bitShifted he => exact hs.of_active (active_of_shiftEnabled he) rfl
  | byteShifted he => exact hs.of_active (active_of_shiftEnabled he) rfl
  | dispatchSelects he =>
    have ha := active_of_edgeEnabled he
    exact selected_legal (hs.of_active ha rfl) ha
  | dispatchDeselects he => exact deselEntry_legal (hs.of_active (active_of_edgeEnabled he) rfl)
  | dispatchByte he =>
    have ha := active_of_byteEnabled he
    rw [State.legal_iff_of_active ha] at hs
    obtain ⟨⟨h1, hb, -, -⟩, hp⟩ := hs
    rw [State.legal_iff_of_active (by simpa using ha)]
    simp only [stage_len, stage_par, stage_rc, stage_sc, stage_selAtt, stage_pin]
    exact ⟨⟨h1, hb, nextCursor_lt _ h1, nextCursor_lt _ h1⟩, hp⟩

/-- Settles O44: an active core's cursors stay below LEN, and one that is not active stays empty. -/
theorem stepKeepsTheInvariants : Obligations.StepKeepsTheInvariants := by
  unfold Obligations.StepKeepsTheInvariants
  intro s t hs h
  exact step_keeps (Inv := State.Legal) (fun _ _ h => h) (fun _ _ _ h => h) (fun _ h => h) Answer.legal hs h

/-! ### The buffer -/

/-- SelEntry fills the live cells where a producer is registered. -/
theorem selBuffer_cases (s : State) : selBuffer s = s.buf ∨ ∃ f, selBuffer s = s.buf.fill s.len.toNat f := by
  cases hp : s.prd
  · exact .inl (by simp [selBuffer, hp])
  · exact .inr ⟨producedByte s, by simp [selBuffer, hp]⟩

/-- What an instruction can do to the buffer: leave it, zero the cells it makes or leaves live, fill the live cells, or write one live
cell. -/
theorem Answer.buf_cases {i : Instr} {s t : State} (h : Answer s i t) :
    t.buf = s.buf ∨ t.buf = s.buf.zero t.len.toNat ∨
      (t.len = s.len ∧ ∃ f, t.buf = s.buf.fill s.len.toNat f) ∨
      (t.len = s.len ∧ ∃ a v, a < s.len.toNat ∧ t.buf = s.buf.write a v) := by
  cases h with
  | cfgAlreadyActive | cfgZeroLength | cfgNoResource | teardown | injectNotActive | ssLevel | bitNotDriven | bitShifted
  | byteNotDriven | byteShifted | rd => exact .inl rfl
  | cfgConfigures => exact .inr (.inl rfl)
  | injectDeselects | dispatchDeselects => exact .inr (.inl (by simp))
  | injectSelects | dispatchSelects =>
    exact (selBuffer_cases _).imp (selected_buf _).trans fun ⟨f, hf⟩ => .inr (.inl ⟨selected_len _, f, (selected_buf _).trans hf⟩)
  | dispatchByte _ hr => exact .inr (.inr (.inr ⟨by simp, _, s.rxReg, hr, by simp⟩))

/-- Every answer keeps the canonical form of the buffer. -/
theorem Answer.buf_wf {i : Instr} {s t : State} (hs : s.buf.wf) (h : Answer s i t) : t.buf.wf := by
  rcases h.buf_cases with e | e | ⟨-, f, e⟩ | ⟨-, a, v, -, e⟩
  · exact e ▸ hs
  · exact e ▸ Memory.zero_wf hs _
  · exact e ▸ Memory.fill_wf hs _ f
  · exact e ▸ Memory.write_wf hs a v

/-- No instruction changes the parameters, the schedule or the free inputs. -/
theorem Answer.keeps_parameters_and_schedule {i : Instr} {s t : State} (h : Answer s i t) :
    t.par = s.par ∧ t.labels = s.labels ∧ t.given = s.given ∧ t.drawNo = s.drawNo := by
  cases h with
  | injectSelects | injectDeselects | dispatchSelects | dispatchDeselects | dispatchByte => simp
  | _ => exact ⟨rfl, rfl, rfl, rfl⟩

theorem State.Legal.len_le_bufMax {s : State} (hs : s.Legal) : s.len.toNat ≤ s.par.bufMax.toNat := by
  cases ha : s.active with
  | true =>
    obtain ⟨⟨-, hb, -⟩, -⟩ := (State.legal_iff_of_active ha).1 hs
    exact BitVec.le_def.1 hb
  | false =>
    obtain ⟨hl, -⟩ := (State.legal_iff_of_inactive ha).1 hs
    simp [hl]

/-- Every answer from a legal state keeps the buffer canonical and below BUF_MAX. -/
theorem Answer.bufferOk {i : Instr} {s t : State} (hl : s.Legal) (hs : s.BufferOk) (h : Answer s i t) : t.BufferOk := by
  refine ⟨h.buf_wf hs.1, ?_⟩
  have hmax := hl.len_le_bufMax
  rw [h.keeps_parameters_and_schedule.1]
  intro c hc
  rcases h.buf_cases with e | e | ⟨-, f, e⟩ | ⟨-, a, v, ha, e⟩ <;> rw [e] at hc
  · exact hs.2 c hc
  · exact hs.2 c (Memory.mem_zero hc)
  · rcases Memory.mem_fill hc with hc | hc
    · exact hs.2 c hc
    · omega
  · rcases Memory.mem_write hc with hc | hc
    · exact hs.2 c hc
    · omega

/-- Settles O45: a cell is listed only when it is written, and only live cells are. -/
theorem stepKeepsTheBufferCanonicalAndInside : Obligations.StepKeepsTheBufferCanonicalAndInside := by
  unfold Obligations.StepKeepsTheBufferCanonicalAndInside
  refine ⟨fun s t hs h => ?canonical, fun s t hl hs h => ?inside⟩
  case canonical =>
    exact step_keeps (Inv := fun s => s.buf.wf) (fun _ _ h => h) (fun _ _ _ h => h) (fun _ h => h) Answer.buf_wf hs h
  case inside =>
    exact (step_keeps (Inv := fun s => s.Legal ∧ s.BufferOk) (fun _ _ h => h) (fun _ _ _ h => h) (fun _ h => h)
      (fun hs h => ⟨h.legal hs.1, h.bufferOk hs.1 hs.2⟩) ⟨hl, hs⟩ h).2

/-- Settles O46: the buffer changes below LEN only. -/
theorem cellsThatAreNotLiveAreNeverWritten : Obligations.CellsThatAreNotLiveAreNeverWritten := by
  unfold Obligations.CellsThatAreNotLiveAreNeverWritten
  intro i s t h a hs ht
  rcases (answer_of_exec h).buf_cases with e | e | ⟨-, f, e⟩ | ⟨-, b, v, hb, e⟩
  · rw [e]
  · rw [e, Memory.read_zero, if_neg (by omega)]
  · rw [e, Memory.read_fill, if_neg (by omega)]
  · rw [e, Memory.read_write, if_neg (by omega)]

/-- Settles O49, answer by answer. -/
theorem execKeepsParametersAndSchedule : Obligations.ExecKeepsParametersAndSchedule := by
  unfold Obligations.ExecKeepsParametersAndSchedule
  exact fun i s t h => (answer_of_exec h).keeps_parameters_and_schedule

/-! ### ERR, the sticky flags and ACTIVE -/

/-- Settles O37: the commands write the code of their outcome, and no other answer touches ERR. -/
theorem errIsWrittenByCommandsOnly : Obligations.ErrIsWrittenByCommandsOnly := by
  unfold Obligations.ErrIsWrittenByCommandsOnly
  refine ⟨fun i s t h => ?instr, fun s w free rest hl hd => ?illegal⟩
  case instr =>
    cases answer_of_exec h with
    | cfgAlreadyActive ha => simp [ha, errCode]
    | cfgZeroLength ha => simp [ha, errCode]
    | cfgNoResource ha hl hb => simp [ha, hl, hb, errCode]
    | cfgConfigures ha hl hb => simp [ha, hl, BitVec.not_lt.2 hb, configured, errCode]
    | injectNotActive ha => simp [ha, errCode]
    | injectSelects ha => simp [ha, errCode]
    | injectDeselects ha => simp [ha, errCode]
    | dispatchSelects => exact selected_err _
    | dispatchDeselects => exact deselEntry_err _
    | dispatchByte => exact stage_err _ _
    | teardown | ssLevel | bitNotDriven | bitShifted | byteNotDriven | byteShifted | rd => rfl
  case illegal =>
    rw [step_scheduled hl, takeLabel, hd]
    exact ⟨_, rfl, rfl⟩

/-- A label that is a CFG that succeeds answers the configured state (R80). -/
theorem Answer.eq_configured_of_cfgSucceeds {i : Instr} {s t : State} (h : Answer s i t) (hc : cfgSucceeds i s = true) :
    ∃ prd cns pin len, t = configured prd cns pin len s := by
  cases h with
  | cfgConfigures => exact ⟨_, _, _, _, rfl⟩
  | cfgAlreadyActive ha => simp [cfgSucceeds, ha] at hc
  | cfgZeroLength => simp [cfgSucceeds] at hc
  | cfgNoResource _ _ hb => simp [cfgSucceeds, BitVec.not_le.2 hb] at hc
  | _ => cases hc

/-- A stage drops its byte only late, and only where the free input says so (R111). -/
@[simp] theorem stage_wcol (v : Byte) (s : State) :
    (stage v s).wcol = (s.wcol || (decide (s.bitCnt ≠ 0#3) && decide (stageChoice s = .drop))) := by
  rw [stage_eq]
  by_cases h : s.bitCnt = 0#3
  · simp [h]
  · cases hc : stageChoice s <;> simp [h]

@[simp] theorem selected_wcol (s : State) :
    (selected s).wcol = (s.wcol || (decide (s.bitCnt ≠ 0#3) && decide (stageChoice s = .drop))) := stage_wcol _ _

/-- Each sticky flag after an answer, for every label but a CFG that succeeds. -/
theorem Answer.sticky_flags {i : Instr} {s t : State} (h : Answer s i t) (hc : cfgSucceeds i s = false) :
    t.staleTx = (s.staleTx || (startsByte i s && !s.txValid)) ∧
    t.overrun = (s.overrun || (completesByte i s && s.tcPend)) ∧
    t.wcol = (s.wcol || (stages i s && decide (s.bitCnt ≠ 0#3) && decide (stageChoice s = .drop))) ∧
    t.edgeLost = (s.edgeLost || (changesSelect i s && s.ssPend)) := by
  cases h with
  | cfgConfigures ha hl hb => simp [cfgSucceeds, ha, hl, hb] at hc
  | cfgAlreadyActive | cfgZeroLength | cfgNoResource | teardown | rd | ssLevel =>
    simp [startsByte, completesByte, stages, edgeAfter, changesSelect, tornDown, emitRd]
  | injectNotActive he | bitNotDriven he | byteNotDriven he | bitShifted he =>
    simp [startsByte, completesByte, stages, edgeAfter, changesSelect, he]
  | injectDeselects he hn | dispatchDeselects he hn | byteShifted he hn =>
    simp [startsByte, completesByte, stages, edgeAfter, changesSelect, he, hn]
  | injectSelects he hn | dispatchSelects he hn =>
    simp [startsByte, completesByte, stages, edgeAfter, changesSelect, he, hn]
    rfl
  | dispatchByte he =>
    simp [startsByte, completesByte, stages, edgeAfter, changesSelect, he]
    rfl

/-- Settles O39: answer by answer, with the state a successful CFG leaves for the other half. -/
theorem stickyFlagsHaveExactlyTheirCauses : Obligations.StickyFlagsHaveExactlyTheirCauses := by
  unfold Obligations.StickyFlagsHaveExactlyTheirCauses
  refine ⟨fun i s t h => (answer_of_exec h).sticky_flags, fun i s t h hc => ?cfg, fun _ _ _ _ => ⟨rfl, rfl, rfl, rfl⟩⟩
  case cfg =>
    obtain ⟨prd, cns, pin, len, rfl⟩ := (answer_of_exec h).eq_configured_of_cfgSucceeds hc
    exact ⟨rfl, rfl, rfl, rfl⟩

/-- ACTIVE after an answer: a successful CFG leaves 1, TEARDOWN 0, any other label what it was. -/
theorem Answer.active_cases {i : Instr} {s t : State} (h : Answer s i t) :
    (cfgSucceeds i s = true ∧ t.active = true) ∨ (i = .teardown ∧ t.active = false) ∨ t.active = s.active := by
  cases h with
  | cfgConfigures ha hl hb => exact .inl ⟨by simp [cfgSucceeds, ha, hl, hb], rfl⟩
  | teardown => exact .inr (.inl ⟨rfl, rfl⟩)
  | injectSelects | dispatchSelects => exact .inr (.inr (selected_active _))
  | injectDeselects | dispatchDeselects => exact .inr (.inr (deselEntry_active _))
  | dispatchByte => exact .inr (.inr (stage_active _ _))
  | _ => exact .inr (.inr rfl)

/-- Settles O41: ACTIVE moves in two answers only. -/
theorem activeMovesOnlyByCfgAndTeardown : Obligations.ActiveMovesOnlyByCfgAndTeardown := by
  unfold Obligations.ActiveMovesOnlyByCfgAndTeardown
  refine ⟨fun i s t h => ?moves, fun i s t h hc => ?cfg, fun _ _ _ _ => rfl⟩
  case moves =>
    rcases (answer_of_exec h).active_cases with ⟨hc, ht⟩ | ⟨hi, ht⟩ | he
    · exact ⟨fun _ _ => hc, fun _ hf => by simp [ht] at hf⟩
    · exact ⟨fun _ hf => by simp [ht] at hf, fun _ _ => hi⟩
    · exact ⟨fun hs hf => by simp [he, hs] at hf, fun hs hf => by simp [he, hs] at hf⟩
  case cfg =>
    obtain ⟨prd, cns, pin, len, rfl⟩ := (answer_of_exec h).eq_configured_of_cfgSucceeds hc
    rfl

/-! ### The traces -/

/-- The same state with other traces of R42. -/
def State.withTraces (x : List Miso) (y : List (List Byte)) (s : State) : State :=
  { s with misoTrace := x, consumeTrace := y }

/-- From `s` to `t` instruction `i` appends to both traces, and it would append the same to any others. -/
def TracesAppended (i : Instr) (s t : State) : Prop :=
  ∃ miso consume, t.misoTrace = s.misoTrace ++ miso ∧ t.consumeTrace = s.consumeTrace ++ consume ∧
    ∀ x y, Answer (s.withTraces x y) i (t.withTraces (x ++ miso) (y ++ consume))

/-- A label that leaves both traces as they were. -/
theorem tracesAppended_of_silent {i : Instr} {s t : State} (hm : t.misoTrace = s.misoTrace)
    (hc : t.consumeTrace = s.consumeTrace) (h : ∀ x y, Answer (s.withTraces x y) i (t.withTraces x y)) :
    TracesAppended i s t :=
  ⟨[], [], by simp [hm], by simp [hc], fun x y => by simpa using h x y⟩

/-- A label that appends to MISO_TRACE only. -/
theorem tracesAppended_of_miso {i : Instr} {s t : State} (miso : List Miso) (hm : t.misoTrace = s.misoTrace ++ miso)
    (hc : t.consumeTrace = s.consumeTrace) (h : ∀ x y, Answer (s.withTraces x y) i (t.withTraces (x ++ miso) y)) :
    TracesAppended i s t :=
  ⟨miso, [], hm, by simp [hc], fun x y => by simpa using h x y⟩

theorem stage_withTraces (v : Byte) (x : List Miso) (y : List (List Byte)) (s : State) :
    stage v (s.withTraces x y) = (stage v s).withTraces x y := by
  simp only [stage_eq]; rfl

theorem selected_withTraces (x : List Miso) (y : List (List Byte)) (s : State) :
    selected (s.withTraces x y) = (selected s).withTraces x y := by
  simp only [selected, ← stage_withTraces]; rfl

/-- A label that enters DESELECTED: DeselEntry appends the live bytes where a consumer is registered (R94). -/
theorem tracesAppended_deselEntry {i : Instr} {s u : State} (hm : u.misoTrace = s.misoTrace)
    (hc : u.consumeTrace = s.consumeTrace) (h : ∀ x y, Answer (s.withTraces x y) i (deselEntry (u.withTraces x y))) :
    TracesAppended i s (deselEntry u) := by
  refine ⟨[], if u.cns then [liveBytes u] else [], by simp [hm], ?_, fun x y => ?_⟩
  · cases hu : u.cns <;> simp [hc, hu]
  · have hd : deselEntry (u.withTraces x y) =
        (deselEntry u).withTraces (x ++ []) (y ++ if u.cns then [liveBytes u] else []) := by
      cases hu : u.cns <;> simp [deselEntry_eq, State.withTraces, liveBytes, hu]
    exact hd ▸ h x y

/-- Every answer appends to the traces, whatever they hold. -/
theorem Answer.tracesAppended {i : Instr} {s t : State} (h : Answer s i t) : TracesAppended i s t := by
  cases h with
  | cfgAlreadyActive ha => exact tracesAppended_of_silent rfl rfl fun _ _ => .cfgAlreadyActive ha
  | cfgZeroLength ha => exact tracesAppended_of_silent rfl rfl fun _ _ => .cfgZeroLength ha
  | cfgNoResource ha hl hb => exact tracesAppended_of_silent rfl rfl fun _ _ => .cfgNoResource ha hl hb
  | cfgConfigures ha hl hb => exact tracesAppended_of_silent rfl rfl fun _ _ => .cfgConfigures ha hl hb
  | teardown => exact tracesAppended_of_silent rfl rfl fun _ _ => .teardown
  | injectNotActive ha => exact tracesAppended_of_silent rfl rfl fun _ _ => .injectNotActive ha
  | injectSelects ha hn hl =>
    refine tracesAppended_of_silent (selected_misoTrace _) (selected_consumeTrace _) fun x y => ?_
    rw [← selected_withTraces]
    exact .injectSelects ha hn hl
  | injectDeselects ha hn => exact tracesAppended_deselEntry rfl rfl fun _ _ => .injectDeselects ha hn
  | ssLevel => exact tracesAppended_of_silent rfl rfl fun _ _ => .ssLevel
  | bitNotDriven he => exact tracesAppended_of_miso _ rfl rfl fun _ _ => .bitNotDriven he
  | bitShifted he => exact tracesAppended_of_miso _ rfl rfl fun _ _ => .bitShifted he
  | byteNotDriven he h0 => exact tracesAppended_of_miso _ rfl rfl fun _ _ => .byteNotDriven he h0
  | byteShifted he h0 => exact tracesAppended_of_miso _ rfl rfl fun _ _ => .byteShifted he h0
  | rd => exact tracesAppended_of_silent rfl rfl fun _ _ => .rd
  | dispatchSelects he hn hl =>
    refine tracesAppended_of_silent (selected_misoTrace _) (selected_consumeTrace _) fun x y => ?_
    rw [← selected_withTraces]
    exact .dispatchSelects he hn hl
  | dispatchDeselects he hn => exact tracesAppended_deselEntry rfl rfl fun _ _ => .dispatchDeselects he hn
  | dispatchByte he hr hs =>
    refine tracesAppended_of_silent (stage_misoTrace _ _) (stage_consumeTrace _ _) fun x y => ?_
    rw [← stage_withTraces]
    exact .dispatchByte he hr hs

/-- Settles O48: the same answer is reached from any other traces, with the same entries appended. -/
theorem tracesAreAppendOnlyAndUnread : Obligations.TracesAreAppendOnlyAndUnread := by
  unfold Obligations.TracesAreAppendOnlyAndUnread
  intro i s t h
  obtain ⟨miso, consume, hm, hc, hx⟩ := (answer_of_exec h).tracesAppended
  exact ⟨miso, consume, hm, hc, fun x y => (hx x y).exec_eq⟩

end Sys2Proof.Machine

namespace Sys2Proof

/-! ### The fields of the registers -/

/-- The bits of a field are what it holds. -/
theorem extractLsb'_field_same (w lo : Nat) {n : Nat} (v : BitVec n) (h : lo + n ≤ w) :
    (field w lo v).extractLsb' lo n = v := by
  refine BitVec.eq_of_getLsbD_eq fun i hi => ?_
  have hw : lo + i < w := by omega
  simp [hi, hw]

/-- Bits outside a field are 0. -/
theorem extractLsb'_field_apart (w lo' : Nat) {n : Nat} (v : BitVec n) (lo k : Nat) (h : lo + k ≤ lo' ∨ lo' + n ≤ lo) :
    (field w lo' v).extractLsb' lo k = 0#k := by
  refine BitVec.eq_of_getLsbD_eq fun i hi => ?_
  rw [BitVec.getLsbD_extractLsb', getLsbD_field, BitVec.getLsbD_zero]
  rcases h with h | h
  · have : ¬ lo' ≤ lo + i := by omega
    simp [this]
  · rw [getLsbD_ge v (by omega)]; simp

end Sys2Proof

namespace Sys2Proof.Machine

theorem regRead_of_reserved {idx : BitVec 4} (h : 7#4 ≤ idx) (s : State) : regRead idx s = 0#32 := by
  have hne : idx ≠ 1#4 ∧ idx ≠ 2#4 ∧ idx ≠ 3#4 ∧ idx ≠ 4#4 ∧ idx ≠ 5#4 ∧ idx ≠ 6#4 := by
    refine ⟨?_, ?_, ?_, ?_, ?_, ?_⟩ <;> rintro rfl <;> exact absurd h (by decide)
  simp [regRead, hne]

theorem bitOrderBit_getLsbD (o : BitOrder) : (bitOrderBit o).getLsbD 0 = decide (o = .lsbFirst) := by
  cases o <;> rfl

/-- Settles O18: STATUS is a union of fields, and each slice meets one of them or none. -/
theorem statusFieldsAreAtTheirBits : Obligations.StatusFieldsAreAtTheirBits := by
  unfold Obligations.StatusFieldsAreAtTheirBits
  intro s
  have hedge : (regRead 1#4 s).extractLsb' 1 2 = edgeCode s.edge := by
    simp [regRead, statusWord, BitVec.extractLsb'_or, extractLsb'_field_same, extractLsb'_field_apart]
  refine ⟨by simp [regRead, statusWord], fun h => hedge.trans (by rw [h]; rfl), fun h => hedge.trans (by rw [h]; rfl),
    fun h => hedge.trans (by rw [h]; rfl), ?_⟩
  simp [regRead, statusWord, BitVec.extractLsb'_or, extractLsb'_field_same, extractLsb'_field_apart]

/-- Settles O19: as STATUS, each register is a union of fields. -/
theorem registerFieldsAreAtTheirBits : Obligations.RegisterFieldsAreAtTheirBits := by
  unfold Obligations.RegisterFieldsAreAtTheirBits
  intro s
  refine ⟨rfl, fun idx h => regRead_of_reserved h s, ?_⟩
  simp [regRead, lenWord, cursorWord, shiftWord, configWord, capsWord, BitVec.extractLsb'_or, extractLsb'_field_same,
    extractLsb'_field_apart, ← bitOrderBit_getLsbD]

end Sys2Proof.Machine
end

/-! Proofs of the family `20_memory.md`: the next byte on the wire, the reach of the bus master, and commands given twice. -/

section
namespace Sys2Proof.Machine

/-! ### The byte staged in time is the next byte on the wire -/

/-- A stage while no byte is shifting takes its byte, whatever the free input says (R111). -/
theorem stage_of_aligned {s : State} (v : Byte) (h0 : s.bitCnt = 0#3) : stage v s = loadTx v s := if_pos h0

/-- The BYTE right after a stage in time sends the byte that was staged (R48, R114). -/
theorem byte_after_stage_sends {s : State} (m v : Byte) (g : FreeInputs) (n : Nat) (h0 : s.bitCnt = 0#3)
    (he : shiftEnabled s = true) :
    ∃ u, exec (.byte m) ((stage v s).withInputs g n) = .next u ∧
      u.misoTrace = s.misoTrace ++ (wireBits s.par.bitOrder v).map Miso.bit := by
  rw [stage_of_aligned v h0]
  exact ⟨_, execByte_enabled m (by exact he) h0, rfl⟩

/-- The BYTE right after a SelEntry in time sends cell 0, as the producer left it (R93). -/
theorem byte_after_selected_sends {s : State} (m : Byte) (g : FreeInputs) (n : Nat) (h0 : s.bitCnt = 0#3)
    (he : shiftEnabled (selected s) = true) :
    ∃ u, exec (.byte m) ((selected s).withInputs g n) = .next u ∧
      u.misoTrace = s.misoTrace ++ (wireBits s.par.bitOrder ((selected s).buf.read 0)).map Miso.bit := by
  rw [selected_buf]
  exact byte_after_stage_sends m _ g n h0 (by simpa [shiftEnabled] using he)

/-- Settles O33: SelEntry stages cell 0 and DISPATCH_BYTE the cell at SC, both from the buffer they leave. -/
theorem nextByteOnTheWireIsTheStagedCell : Obligations.NextByteOnTheWireIsTheStagedCell := by
  unfold Obligations.NextByteOnTheWireIsTheStagedCell
  refine ⟨fun m i s t g n h0 hi h he => ?selEntry, fun m s t g n h0 he h => ?dispatchByte⟩
  case selEntry =>
    cases answer_of_exec h with
    | injectSelects | dispatchSelects => exact byte_after_selected_sends m g n h0 he
    | injectNotActive ha => simp [edgeAfter, ha] at hi
    | injectDeselects ha hn | dispatchDeselects ha hn => simp [edgeAfter, ha, hn] at hi
    | _ => cases hi
  case dispatchByte =>
    cases answer_of_exec h with
    | dispatchByte =>
      rw [stage_buf]
      exact byte_after_stage_sends m _ g n h0 he

/-! ### The bus master and the commands -/

/-- Settles O47: SS_LEVEL has one answer, SCK_BIT and BYTE have one for each value of shift enable. -/
theorem busMasterReachesOnlyLineAndShiftRegister : Obligations.BusMasterReachesOnlyLineAndShiftRegister := by
  unfold Obligations.BusMasterReachesOnlyLineAndShiftRegister
  rintro i s t (⟨v, rfl⟩ | ⟨b, rfl⟩ | ⟨m, rfl⟩) h
  · cases answer_of_exec h with
    | ssLevel => rfl
  · cases answer_of_exec h with
    | bitNotDriven | bitShifted => rfl
  · cases answer_of_exec h with
    | byteNotDriven | byteShifted => rfl

/-- A CFG that ends with ERR 0 leaves the core active: the other answers write another code (R80). -/
theorem Answer.active_of_cfg_ok {prd cns : Bool} {pin : Option Byte} {len : Half} {s t : State}
    (h : Answer s (.cfg prd cns pin len) t) (he : t.err = 0#4) : t.active = true := by
  cases h with
  | cfgConfigures => rfl
  | cfgAlreadyActive | cfgZeroLength | cfgNoResource => simp [errCode] at he

/-- CFG on an active core changes ERR only, to ALREADY_ACTIVE, whatever its operands (R80). -/
theorem execCfg_alreadyActive {s : State} (prd cns : Bool) (pin : Option Byte) (len : Half) (ha : s.active = true) :
    execCfg prd cns pin len s = .next (setErr .alreadyActive s) := if_pos ha

/-- Settles O15: a torn-down state is its own TEARDOWN, and the first CFG left the core active. -/
theorem teardownTwiceIsOnceAndCfgTwiceFails : Obligations.TeardownTwiceIsOnceAndCfgTwiceFails := by
  unfold Obligations.TeardownTwiceIsOnceAndCfgTwiceFails
  refine ⟨fun s t g n h => ?teardown, fun prd cns prd' cns' pin pin' len len' s t g n h he => ?cfg⟩
  case teardown =>
    cases answer_of_exec h with
    | teardown => rfl
  case cfg => exact execCfg_alreadyActive prd' cns' pin' len' ((answer_of_exec h).active_of_cfg_ok he)

end Sys2Proof.Machine
end

/-! Proofs of the family `30_encoding.md`: what each word decodes to, said once; words and their fields; the opcode map; the words of no
row; and `xfer`. -/

section
namespace Sys2Proof

/-! ### A word and its fields -/

/-- Two words agree in the fields of the given widths, laid end to end from bit `lo` up. -/
def FieldsAgree {w : Nat} (x y : BitVec w) : Nat → List Nat → Prop
  | _, [] => True
  | lo, n :: ns => x.extractLsb' lo n = y.extractLsb' lo n ∧ FieldsAgree x y (lo + n) ns

theorem FieldsAgree.getLsbD_eq {w : Nat} {x y : BitVec w} {lo : Nat} {ns : List Nat} (h : FieldsAgree x y lo ns)
    {i : Nat} (hlo : lo ≤ i) (hi : i < lo + ns.sum) : x.getLsbD i = y.getLsbD i := by
  induction ns generalizing lo with
  | nil => simp at hi; omega
  | cons n ns ih =>
    obtain ⟨hfield, hrest⟩ := h
    by_cases hn : i < lo + n
    · have hbit := congrArg (BitVec.getLsbD · (i - lo)) hfield
      have hlt : i - lo < n := by omega
      simpa [hlt, Nat.add_sub_cancel' hlo] using hbit
    · exact ih hrest (by omega) (by simp at hi; omega)

/-- A word is its fields: words that agree in fields that cover them are equal. -/
theorem FieldsAgree.eq {w : Nat} {x y : BitVec w} {ns : List Nat} (h : FieldsAgree x y 0 ns) (hw : w ≤ ns.sum) : x = y :=
  BitVec.eq_of_getLsbD_eq fun _ hi => h.getLsbD_eq (Nat.zero_le _) (by omega)

/-- A bit, as the field of one bit. -/
theorem ofBool_getElem {w : Nat} (x : BitVec w) {i : Nat} (h : i < w) : BitVec.ofBool x[i] = x.extractLsb' i 1 := by
  refine BitVec.eq_of_getLsbD_eq fun j hj => ?_
  obtain rfl : j = 0 := by omega
  simp [BitVec.getLsbD_eq_getElem h]

/-- Where a mask covers a field, a word that matches `value` under it holds the field of `value`. -/
theorem extractLsb'_of_and_eq {w lo n : Nat} {x mask value : BitVec w} (h : x &&& mask = value)
    (hm : mask.extractLsb' lo n = BitVec.allOnes n) : x.extractLsb' lo n = value.extractLsb' lo n := by
  rw [← h, BitVec.extractLsb'_and, hm, BitVec.and_allOnes]

/-! ### The pin operand -/

@[simp] theorem pinField_pinOperand (p : Byte) : pinField (pinOperand p) = p := by
  by_cases h : p = Config.pinSentinel <;> simp [pinOperand, pinField, h]

theorem pinOperand_pinField {pin : Option Byte} (h : pin ≠ some Config.pinSentinel) : pinOperand (pinField pin) = pin := by
  cases pin with
  | none => rfl
  | some p => exact if_neg fun hp => h (congrArg some hp)

theorem pinOperand_ne_sentinel (p : Byte) : pinOperand p ≠ some Config.pinSentinel := by
  by_cases h : p = Config.pinSentinel <;> simp [pinOperand, h]

/-! ### What each word decodes to, said once -/

/-- The CMD32 words of no row: OP reserved, or a reserved bit of the opcode set (R73). -/
def IllegalCmd (w : Word) : Prop :=
  let op := w.extractLsb' 28 4
  op = 0#4 ∨ 4#4 ≤ op ∨ (op = 1#4 ∧ w.extractLsb' 24 2 ≠ 0#2) ∨ (op = 2#4 ∧ w.extractLsb' 0 28 ≠ 0#28) ∨
    (op = 3#4 ∧ w.extractLsb' 1 27 ≠ 0#27)

/-- The EV16 words of no row: KIND reserved, or a reserved bit of the kind set (R74). -/
def ReservedEvent (e : Half) : Prop :=
  let kind := e.extractLsb' 12 4
  kind = 0#4 ∨ (5#4 ≤ kind ∧ kind ≤ 7#4) ∨ 10#4 ≤ kind ∨
    ((kind = 1#4 ∨ kind = 2#4) ∧ e.extractLsb' 1 11 ≠ 0#11) ∨ (kind = 3#4 ∧ e.extractLsb' 8 4 ≠ 0#4) ∨
    (kind = 4#4 ∧ e.extractLsb' 4 8 ≠ 0#8) ∨ ((kind = 8#4 ∨ kind = 9#4) ∧ e.extractLsb' 0 12 ≠ 0#12)

/-- `Decodes l d`: label `l` decodes to `d`. One constructor for each row of the opcode map, and one for the words of no row of each
format. -/
inductive Decodes : Label → Decoded → Prop where
  | cfg {w : Word} (op : w.extractLsb' 28 4 = 1#4) (reserved : w.extractLsb' 24 2 = 0#2) : Decodes (.cmd w)
      (.instr (.cfg (w.getLsbD 27) (w.getLsbD 26) (pinOperand (w.extractLsb' 16 8)) (w.extractLsb' 0 16)))
  | teardown {w : Word} (op : w.extractLsb' 28 4 = 2#4) (reserved : w.extractLsb' 0 28 = 0#28) :
      Decodes (.cmd w) (.instr .teardown)
  | injectEdge {w : Word} (op : w.extractLsb' 28 4 = 3#4) (reserved : w.extractLsb' 1 27 = 0#27) :
      Decodes (.cmd w) (.instr (.injectEdge (w.getLsbD 0)))
  | illegalCmd {w : Word} (illegal : IllegalCmd w) : Decodes (.cmd w) .illegalCmd
  | ssLevel {e : Half} (kind : e.extractLsb' 12 4 = 1#4) (reserved : e.extractLsb' 1 11 = 0#11) :
      Decodes (.ev e) (.instr (.ssLevel (e.getLsbD 0)))
  | sckBit {e : Half} (kind : e.extractLsb' 12 4 = 2#4) (reserved : e.extractLsb' 1 11 = 0#11) :
      Decodes (.ev e) (.instr (.sckBit (e.getLsbD 0)))
  | byte {e : Half} (kind : e.extractLsb' 12 4 = 3#4) (reserved : e.extractLsb' 8 4 = 0#4) :
      Decodes (.ev e) (.instr (.byte (e.extractLsb' 0 8)))
  | rd {e : Half} (kind : e.extractLsb' 12 4 = 4#4) (reserved : e.extractLsb' 4 8 = 0#8) :
      Decodes (.ev e) (.instr (.rd (e.extractLsb' 0 4)))
  | dispatchEdge {e : Half} (kind : e.extractLsb' 12 4 = 8#4) (reserved : e.extractLsb' 0 12 = 0#12) :
      Decodes (.ev e) (.instr .dispatchEdge)
  | dispatchByte {e : Half} (kind : e.extractLsb' 12 4 = 9#4) (reserved : e.extractLsb' 0 12 = 0#12) :
      Decodes (.ev e) (.instr .dispatchByte)
  | reservedEvent {e : Half} (reserved : ReservedEvent e) : Decodes (.ev e) .reservedEvent

theorem decodes_decodeCmd (w : Word) : Decodes (.cmd w) (decodeCmd w) := by
  simp only [decodeCmd]
  split_ifs with op reserved op reserved op reserved
  · exact .cfg op reserved
  · exact .illegalCmd (by simp [IllegalCmd, op, reserved])
  · exact .teardown op reserved
  · exact .illegalCmd (by simp [IllegalCmd, op, reserved])
  · exact .injectEdge op reserved
  · exact .illegalCmd (by simp [IllegalCmd, op, reserved])
  · have hop : w.extractLsb' 28 4 = 0#4 ∨ 4#4 ≤ w.extractLsb' 28 4 := by bv_omega
    exact .illegalCmd (hop.imp_right .inl)

theorem decodes_decodeEv (e : Half) : Decodes (.ev e) (decodeEv e) := by
  simp only [decodeEv]
  split_ifs with kind reserved kind reserved kind reserved kind reserved kind reserved kind reserved
  · exact .ssLevel kind reserved
  · exact .reservedEvent (by simp [ReservedEvent, kind, reserved])
  · exact .sckBit kind reserved
  · exact .reservedEvent (by simp [ReservedEvent, kind, reserved])
  · exact .byte kind reserved
  · exact .reservedEvent (by simp [ReservedEvent, kind, reserved])
  · exact .rd kind reserved
  · exact .reservedEvent (by simp [ReservedEvent, kind, reserved])
  · exact .dispatchEdge kind reserved
  · exact .reservedEvent (by simp [ReservedEvent, kind, reserved])
  · exact .dispatchByte kind reserved
  · exact .reservedEvent (by simp [ReservedEvent, kind, reserved])
  · have hkind : e.extractLsb' 12 4 = 0#4 ∨ (5#4 ≤ e.extractLsb' 12 4 ∧ e.extractLsb' 12 4 ≤ 7#4) ∨
        10#4 ≤ e.extractLsb' 12 4 := by bv_omega
    exact .reservedEvent (hkind.imp_right (Or.imp_right .inl))

theorem decodes_decode : ∀ l : Label, Decodes l (decode l)
  | .cmd w => decodes_decodeCmd w
  | .ev e => decodes_decodeEv e

/-- A row's opcode and reserved bits keep a word out of the illegal ones, so an illegal word decodes as one. -/
theorem decode_of_illegalCmd {w : Word} (h : IllegalCmd w) : decode (.cmd w) = .illegalCmd := by
  have hd := decodes_decode (.cmd w)
  generalize decode (.cmd w) = d at hd ⊢
  cases hd with
  | illegalCmd => rfl
  | cfg op reserved | teardown op reserved | injectEdge op reserved => simp [IllegalCmd, op, reserved] at h

/-- As for the illegal words: a kind's reserved bits keep an event word out of the reserved ones. -/
theorem decode_of_reservedEvent {e : Half} (h : ReservedEvent e) : decode (.ev e) = .reservedEvent := by
  have hd := decodes_decode (.ev e)
  generalize decode (.ev e) = d at hd ⊢
  cases hd with
  | reservedEvent => rfl
  | ssLevel kind reserved | sckBit kind reserved | byte kind reserved | rd kind reserved | dispatchEdge kind reserved
  | dispatchByte kind reserved => simp [ReservedEvent, kind, reserved] at h

theorem Decodes.decode_eq {l : Label} {d : Decoded} (h : Decodes l d) : decode l = d := by
  cases h with
  | cfg op reserved | teardown op reserved | injectEdge op reserved => simp [decode, decodeCmd, op, reserved]
  | illegalCmd illegal => exact decode_of_illegalCmd illegal
  | ssLevel kind reserved | sckBit kind reserved | byte kind reserved | rd kind reserved | dispatchEdge kind reserved
  | dispatchByte kind reserved => simp [decode, decodeEv, kind, reserved]
  | reservedEvent reserved => exact decode_of_reservedEvent reserved

theorem decode_eq_iff {l : Label} {d : Decoded} : decode l = d ↔ Decodes l d :=
  ⟨fun h => h ▸ decodes_decode l, Decodes.decode_eq⟩

/-! ### Encoding and decoding -/

/-- The fields of an encoding are its operands, and its reserved bits are 0. -/
theorem decode_encode {i : Instr} (hi : i.wellFormed = true) : decode (encode i) = .instr i := by
  cases i with
  | cfg prd cns pin len =>
    have hpin : pinOperand (pinField pin) = pin := pinOperand_pinField (of_decide_eq_true hi)
    simp [encode, decode, decodeCmd, BitVec.extractLsb'_or, extractLsb'_field_same, extractLsb'_field_apart, hpin]
  | teardown | dispatchEdge | dispatchByte => rfl
  | injectEdge b | ssLevel b | sckBit b => cases b <;> rfl
  | byte | rd =>
    simp [encode, decode, decodeEv, BitVec.extractLsb'_or, extractLsb'_field_same, extractLsb'_field_apart]

/-- Settles O2: `encode` lays out what `decode` reads. -/
theorem decodeOfEncodeIsTheInstruction : Obligations.DecodeOfEncodeIsTheInstruction := by
  unfold Obligations.DecodeOfEncodeIsTheInstruction
  exact fun _ => decode_encode

/-- The encoding of what a label decodes to holds the label's fields, field by field. -/
theorem encode_of_decodes {l : Label} {i : Instr} (h : Decodes l (.instr i)) : encode i = l := by
  cases h with
  | @cfg w op reserved =>
    refine congrArg Label.cmd (FieldsAgree.eq (ns := [16, 8, 2, 1, 1, 4]) ?_ (by decide))
    simp [FieldsAgree, ofBool_getElem, BitVec.extractLsb'_or, extractLsb'_field_same, extractLsb'_field_apart, op, reserved]
  | @teardown w op reserved =>
    refine congrArg Label.cmd (FieldsAgree.eq (ns := [28, 4]) ?_ (by decide))
    simp [FieldsAgree, extractLsb'_field_same, extractLsb'_field_apart, op, reserved]
  | @injectEdge w op reserved =>
    refine congrArg Label.cmd (FieldsAgree.eq (ns := [1, 27, 4]) ?_ (by decide))
    simp [FieldsAgree, ofBool_getElem, BitVec.extractLsb'_or, extractLsb'_field_same, extractLsb'_field_apart, op, reserved]
  | @ssLevel e kind reserved | @sckBit e kind reserved =>
    refine congrArg Label.ev (FieldsAgree.eq (ns := [1, 11, 4]) ?_ (by decide))
    simp [FieldsAgree, ofBool_getElem, BitVec.extractLsb'_or, extractLsb'_field_same, extractLsb'_field_apart, kind, reserved]
  | @byte e kind reserved =>
    refine congrArg Label.ev (FieldsAgree.eq (ns := [8, 4, 4]) ?_ (by decide))
    simp [FieldsAgree, BitVec.extractLsb'_or, extractLsb'_field_same, extractLsb'_field_apart, kind, reserved]
  | @rd e kind reserved =>
    refine congrArg Label.ev (FieldsAgree.eq (ns := [4, 8, 4]) ?_ (by decide))
    simp [FieldsAgree, BitVec.extractLsb'_or, extractLsb'_field_same, extractLsb'_field_apart, kind, reserved]
  | @dispatchEdge e kind reserved | @dispatchByte e kind reserved =>
    refine congrArg Label.ev (FieldsAgree.eq (ns := [12, 4]) ?_ (by decide))
    simp [FieldsAgree, extractLsb'_field_same, extractLsb'_field_apart, kind, reserved]

theorem wellFormed_of_decodes {l : Label} {i : Instr} (h : Decodes l (.instr i)) : i.wellFormed = true := by
  cases h with
  | cfg => exact decide_eq_true (pinOperand_ne_sentinel _)
  | _ => rfl

/-- Settles O3: the two halves hold of every constructor of `Decodes`. -/
theorem decodedLabelIsTheEncoding : Obligations.DecodedLabelIsTheEncoding := by
  unfold Obligations.DecodedLabelIsTheEncoding
  intro l i h
  have hd := decode_eq_iff.1 h
  exact ⟨wellFormed_of_decodes hd, encode_of_decodes hd⟩

/-! ### The opcode map: row by row, the words that match are the words that decode (R71) -/

/-- A label that decodes to an instruction matches the instruction's row, as every encoding does. -/
theorem admits_of_decode {l : Label} {i : Instr} (h : decode l = .instr i) : i.row.admits l = true := by
  rw [← encode_of_decodes (decode_eq_iff.1 h)]
  cases i with
  | cfg prd cns pin len => exact Laws.RowAdmitsEncoding.cfg prd cns pin len
  | teardown => exact Laws.RowAdmitsEncoding.teardown
  | injectEdge lvl => exact Laws.RowAdmitsEncoding.injectEdge lvl
  | ssLevel v => exact Laws.RowAdmitsEncoding.ssLevel v
  | sckBit mosi => exact Laws.RowAdmitsEncoding.sckBit mosi
  | byte m => exact Laws.RowAdmitsEncoding.byte m
  | rd idx => exact Laws.RowAdmitsEncoding.rd idx
  | dispatchEdge => exact Laws.RowAdmitsEncoding.dispatchEdge
  | dispatchByte => exact Laws.RowAdmitsEncoding.dispatchByte

theorem admits_cmd32 {value mask w : Word} : (OpcodeRow.cmd32 value mask).admits (.cmd w) = true ↔ w &&& mask = value :=
  decide_eq_true_iff

theorem admits_ev16 {value mask e : Half} : (OpcodeRow.ev16 value mask).admits (.ev e) = true ↔ e &&& mask = value :=
  decide_eq_true_iff

/-- The mask covers what `Decodes` tests of a CFG word; so for each row below. -/
theorem decode_cfg_iff {w : Word} :
    (∃ prd cns pin len, decode (.cmd w) = .instr (.cfg prd cns pin len)) ↔ w &&& 0xF3000000#32 = 0x10000000#32 :=
  ⟨fun ⟨_, _, _, _, h⟩ => admits_cmd32.1 (admits_of_decode h),
    fun h => ⟨_, _, _, _, Decodes.decode_eq (.cfg (extractLsb'_of_and_eq h rfl) (extractLsb'_of_and_eq h rfl))⟩⟩

theorem decode_teardown_iff {w : Word} : decode (.cmd w) = .instr .teardown ↔ w &&& 0xFFFFFFFF#32 = 0x20000000#32 :=
  ⟨fun h => admits_cmd32.1 (admits_of_decode h),
    fun h => Decodes.decode_eq (.teardown (extractLsb'_of_and_eq h rfl) (extractLsb'_of_and_eq h rfl))⟩

theorem decode_injectEdge_iff {w : Word} :
    (∃ lvl, decode (.cmd w) = .instr (.injectEdge lvl)) ↔ w &&& 0xFFFFFFFE#32 = 0x30000000#32 :=
  ⟨fun ⟨_, h⟩ => admits_cmd32.1 (admits_of_decode h),
    fun h => ⟨_, Decodes.decode_eq (.injectEdge (extractLsb'_of_and_eq h rfl) (extractLsb'_of_and_eq h rfl))⟩⟩

theorem decode_ssLevel_iff {e : Half} :
    (∃ v, decode (.ev e) = .instr (.ssLevel v)) ↔ e &&& 0xFFFE#16 = 0x1000#16 :=
  ⟨fun ⟨_, h⟩ => admits_ev16.1 (admits_of_decode h),
    fun h => ⟨_, Decodes.decode_eq (.ssLevel (extractLsb'_of_and_eq h rfl) (extractLsb'_of_and_eq h rfl))⟩⟩

theorem decode_sckBit_iff {e : Half} :
    (∃ b, decode (.ev e) = .instr (.sckBit b)) ↔ e &&& 0xFFFE#16 = 0x2000#16 :=
  ⟨fun ⟨_, h⟩ => admits_ev16.1 (admits_of_decode h),
    fun h => ⟨_, Decodes.decode_eq (.sckBit (extractLsb'_of_and_eq h rfl) (extractLsb'_of_and_eq h rfl))⟩⟩

theorem decode_byte_iff {e : Half} :
    (∃ m, decode (.ev e) = .instr (.byte m)) ↔ e &&& 0xFF00#16 = 0x3000#16 :=
  ⟨fun ⟨_, h⟩ => admits_ev16.1 (admits_of_decode h),
    fun h => ⟨_, Decodes.decode_eq (.byte (extractLsb'_of_and_eq h rfl) (extractLsb'_of_and_eq h rfl))⟩⟩

theorem decode_rd_iff {e : Half} :
    (∃ idx, decode (.ev e) = .instr (.rd idx)) ↔ e &&& 0xFFF0#16 = 0x4000#16 :=
  ⟨fun ⟨_, h⟩ => admits_ev16.1 (admits_of_decode h),
    fun h => ⟨_, Decodes.decode_eq (.rd (extractLsb'_of_and_eq h rfl) (extractLsb'_of_and_eq h rfl))⟩⟩

theorem decode_dispatchEdge_iff {e : Half} : decode (.ev e) = .instr .dispatchEdge ↔ e &&& 0xFFFF#16 = 0x8000#16 :=
  ⟨fun h => admits_ev16.1 (admits_of_decode h),
    fun h => Decodes.decode_eq (.dispatchEdge (extractLsb'_of_and_eq h rfl) (extractLsb'_of_and_eq h rfl))⟩

theorem decode_dispatchByte_iff {e : Half} : decode (.ev e) = .instr .dispatchByte ↔ e &&& 0xFFFF#16 = 0x9000#16 :=
  ⟨fun h => admits_ev16.1 (admits_of_decode h),
    fun h => Decodes.decode_eq (.dispatchByte (extractLsb'_of_and_eq h rfl) (extractLsb'_of_and_eq h rfl))⟩

/-- A label that matches the row of an instruction decodes to an instruction of that row: the mask covers the opcode and the reserved
bits, and decoding tests nothing else. -/
theorem exists_decode_of_admits {i : Instr} {l : Label} (h : i.row.admits l = true) :
    ∃ j : Instr, decode l = .instr j ∧ j.row = i.row := by
  cases l with
  | cmd w =>
    cases i with
    | cfg =>
      obtain ⟨_, _, _, _, hd⟩ := decode_cfg_iff.2 (admits_cmd32.1 h)
      exact ⟨_, hd, rfl⟩
    | teardown => exact ⟨_, decode_teardown_iff.2 (admits_cmd32.1 h), rfl⟩
    | injectEdge =>
      obtain ⟨_, hd⟩ := decode_injectEdge_iff.2 (admits_cmd32.1 h)
      exact ⟨_, hd, rfl⟩
    | _ => cases h
  | ev e =>
    cases i with
    | ssLevel =>
      obtain ⟨_, hd⟩ := decode_ssLevel_iff.2 (admits_ev16.1 h)
      exact ⟨_, hd, rfl⟩
    | sckBit =>
      obtain ⟨_, hd⟩ := decode_sckBit_iff.2 (admits_ev16.1 h)
      exact ⟨_, hd, rfl⟩
    | byte =>
      obtain ⟨_, hd⟩ := decode_byte_iff.2 (admits_ev16.1 h)
      exact ⟨_, hd, rfl⟩
    | rd =>
      obtain ⟨_, hd⟩ := decode_rd_iff.2 (admits_ev16.1 h)
      exact ⟨_, hd, rfl⟩
    | dispatchEdge => exact ⟨_, decode_dispatchEdge_iff.2 (admits_ev16.1 h), rfl⟩
    | dispatchByte => exact ⟨_, decode_dispatchByte_iff.2 (admits_ev16.1 h), rfl⟩
    | _ => cases h

/-- Settles O4: a label that matches two rows decodes to an instruction of each, and decoding has one answer. -/
theorem opcodeMapIsWhatDecodes : Obligations.OpcodeMapIsWhatDecodes := by
  unfold Obligations.OpcodeMapIsWhatDecodes
  refine ⟨fun _ => decode_cfg_iff, fun _ => decode_teardown_iff, fun _ => decode_injectEdge_iff, fun _ => decode_ssLevel_iff,
    fun _ => decode_sckBit_iff, fun _ => decode_byte_iff, fun _ => decode_rd_iff, fun _ => decode_dispatchEdge_iff,
    fun _ => decode_dispatchByte_iff, fun i j l hi hj => ?_⟩
  obtain ⟨i', hdi, hri⟩ := exists_decode_of_admits hi
  obtain ⟨j', hdj, hrj⟩ := exists_decode_of_admits hj
  obtain rfl : i' = j' := Decoded.instr.inj (hdi.symm.trans hdj)
  exact hri.symm.trans hrj

/-- Settles O5: `Decodes` names each operand's bits, and the encoding is a word for every LEN. -/
theorem operandsAreTheFieldsOfTheWord : Obligations.OperandsAreTheFieldsOfTheWord := by
  unfold Obligations.OperandsAreTheFieldsOfTheWord
  refine ⟨fun w prd cns pin len h => ?cfg, fun w lvl h => ?injectEdge, fun e v h => ?ssLevel, fun e b h => ?sckBit,
    fun e m h => ?byte, fun e idx h => ?rd, fun prd cns pin len => ?everyLength⟩
  case cfg => cases decode_eq_iff.1 h with | cfg => exact ⟨rfl, pinField_pinOperand _, rfl, rfl⟩
  case injectEdge => cases decode_eq_iff.1 h with | injectEdge => rfl
  case ssLevel => cases decode_eq_iff.1 h with | ssLevel => rfl
  case sckBit => cases decode_eq_iff.1 h with | sckBit => rfl
  case byte => cases decode_eq_iff.1 h with | byte => rfl
  case rd => cases decode_eq_iff.1 h with | rd => rfl
  case everyLength =>
    have hwf : (Instr.cfg prd cns (pinOperand pin) len).wellFormed = true := decide_eq_true (pinOperand_ne_sentinel pin)
    exact ⟨_, decode_encode hwf⟩

end Sys2Proof

namespace Sys2Proof.Machine

/-! ### The words of no row -/

/-- Settles O6: an illegal word decodes as one, and its step is `fail ILLEGAL_CMD`; every other word is of a row. -/
theorem illegalCommandWordSetsErrOnly : Obligations.IllegalCommandWordSetsErrOnly := by
  unfold Obligations.IllegalCommandWordSetsErrOnly
  intro w s free rest hl
  refine ⟨fun illegal => ?_, fun legal => ?_⟩
  · rw [step_scheduled hl, decode_of_illegalCmd illegal]
    rfl
  · cases hd : decode (.cmd w) with
    | instr i => exact ⟨i, rfl⟩
    | illegalCmd => cases decode_eq_iff.1 hd with | illegalCmd illegal => exact absurd illegal legal
    | reservedEvent => cases decode_eq_iff.1 hd

/-- Settles O7: as O6, for the event words; a reserved one has no step. -/
theorem reservedEventWordIsRefused : Obligations.ReservedEventWordIsRefused := by
  unfold Obligations.ReservedEventWordIsRefused
  intro e s free rest hl
  refine ⟨fun reserved => ?_, fun legal => ?_⟩
  · rw [step_scheduled hl, decode_of_reservedEvent reserved]
    rfl
  · cases hd : decode (.ev e) with
    | instr i => exact ⟨i, rfl⟩
    | illegalCmd => cases decode_eq_iff.1 hd
    | reservedEvent => cases decode_eq_iff.1 hd with | reservedEvent reserved => exact absurd reserved legal

/-! ### One byte exchanged and handled -/

theorem takeLabel_of_instr {e : RunLabel} {i : Instr} (h : e.decoded = .instr i) (s : State) :
    takeLabel e s = exec i (e.start s) := by rw [takeLabel, h]

/-- DISPATCH_BYTE right after a byte, as one update: the stage is in time (R110, R111). -/
theorem execDispatchByte_aligned {s : State} (he : byteEnabled s = true) (hr : s.rc.toNat < s.len.toNat)
    (hs : s.sc.toNat < s.len.toNat) (h0 : s.bitCnt = 0#3) :
    execDispatchByte s = .next { s with
      tcPend := false
      buf := s.buf.write s.rc.toNat s.rxReg
      rc := nextCursor s.rc s.len
      sc := nextCursor s.sc s.len
      txReg := (s.buf.write s.rc.toNat s.rxReg).read s.sc.toNat
      txValid := true } := by
  rw [execDispatchByte_live he hr hs, stage_of_aligned _ (by exact h0)]
  rfl

/-- Settles O29: BYTE sends the staged byte and leaves `m` pending, and DISPATCH_BYTE stores it and stages the next cell in time. -/
theorem transferExchangesOneByteInTime : Obligations.TransferExchangesOneByteInTime := by
  unfold Obligations.TransferExchangesOneByteInTime
  intro m s es hes hlegal he h0 hv hp
  obtain ⟨e₁, es', rfl, hbyte, hes'⟩ := List.map_eq_cons_iff.1 hes
  obtain ⟨e₂, es'', rfl, hdispatch, hnil⟩ := List.map_eq_cons_iff.1 hes'
  obtain rfl := List.map_eq_nil_iff.1 hnil
  have ha := active_of_shiftEnabled he
  obtain ⟨⟨hlen, -, hr, hs⟩, -⟩ := (State.legal_iff_of_active ha).1 hlegal
  have hne : s.len ≠ 0#16 := by bv_omega
  simp only [runLabels, takeLabel_of_instr hbyte, takeLabel_of_instr hdispatch, exec]
  rw [execByte_enabled m (by exact he) (by exact h0), andThen_next,
    execDispatchByte_aligned (by simp [RunLabel.start, byteEnabled, ha]) (by exact hr) (by exact hs) (by exact h0)]
  refine ⟨_, rfl, ?_⟩
  simp [RunLabel.start, loadedByte, hv, hp, h0, nextCursor_toNat, hne]

/-! ### The worked encodings -/

/-- Settles O1: each word by evaluation, and the CFG with LEN 0 by its answer. -/
theorem workedEncodingsDecode : Obligations.WorkedEncodingsDecode := by
  unfold Obligations.WorkedEncodingsDecode
  have hzero : ∀ s : State, s.active = false → exec (.cfg false false none 0#16) s = .next { s with err := 3#4 } :=
    fun _ ha => (Answer.cfgZeroLength ha).exec_eq
  exact ⟨by decide, by decide, by decide, by decide, hzero, by decide⟩

end Sys2Proof.Machine
end

/-! Proofs of the family `40_config.md`: what CFG and TEARDOWN leave and when they fail, the edge body through the test port, and RD. -/

section
namespace Sys2Proof.Machine

/-! ### CFG and TEARDOWN -/

/-- A scheduled CMD32 word of no row is a step that changes ERR only, to ILLEGAL_CMD (R73). -/
theorem step_of_illegalCmd {s : State} {w : Word} {free : FreeInputs} {rest : List Scheduled}
    (hl : s.labels = ⟨.cmd w, free⟩ :: rest) (h : IllegalCmd w) :
    step s = .next { s with labels := rest, given := free, drawNo := s.drawNo + 1, err := 4#4 } :=
  (illegalCommandWordSetsErrOnly w s free rest hl).1 h

/-- A scheduled label that decodes to an instruction is a step that runs it. -/
theorem step_of_decodes {s : State} {l : Label} {free : FreeInputs} {rest : List Scheduled} {i : Instr}
    (hl : s.labels = ⟨l, free⟩ :: rest) (h : Decodes l (.instr i)) :
    step s = exec i { s with labels := rest, given := free, drawNo := s.drawNo + 1 } :=
  stepRunsTheDecodedInstruction s l free rest i hl h.decode_eq

/-- Settles O11: one clause for each answer of CFG, and the reserved bits decide whether its word is of a row. -/
theorem cfgConfiguresOrFailsInOrder : Obligations.CfgConfiguresOrFailsInOrder := by
  unfold Obligations.CfgConfiguresOrFailsInOrder
  refine ⟨fun prd cns pin len s => ⟨fun ha => ?alreadyActive, fun ha hl => ?zeroLength, fun ha hl hb => ?noResource,
    fun ha hl hb => ?configures⟩, fun w s free rest hl op => ⟨fun reserved => ?illegal, fun reserved => ?runs⟩⟩
  case alreadyActive => exact (Answer.cfgAlreadyActive ha).exec_eq
  case zeroLength => exact hl ▸ (Answer.cfgZeroLength ha).exec_eq
  case noResource => exact (Answer.cfgNoResource ha hl hb).exec_eq
  case configures =>
    refine ⟨s.buf.zero len.toNat, fun a h => ?_, fun a h => ?_, (Answer.cfgConfigures ha hl hb).exec_eq⟩
    · rw [Memory.read_zero, if_pos h]; rfl
    · rw [Memory.read_zero, if_neg (by omega)]
  case illegal => exact step_of_illegalCmd hl (by simp [IllegalCmd, op, reserved])
  case runs => exact ⟨_, pinField_pinOperand _, step_of_decodes hl (.cfg op reserved)⟩

/-- Settles O13: the mask picks out the CFG words, and an active core answers each of them alike. -/
theorem secondCfgChangesOnlyErr : Obligations.SecondCfgChangesOnlyErr := by
  unfold Obligations.SecondCfgChangesOnlyErr
  intro w s free rest hl hw ha
  obtain ⟨prd, cns, pin, len, hd⟩ := decode_cfg_iff.2 hw
  rw [step_of_decodes hl (decode_eq_iff.1 hd)]
  exact execCfg_alreadyActive prd cns pin len ha

/-- Settles O14: TEARDOWN has one answer, and the reserved bits decide whether its word is of a row. -/
theorem teardownEmptiesTheCore : Obligations.TeardownEmptiesTheCore := by
  unfold Obligations.TeardownEmptiesTheCore
  refine ⟨execTeardown_eq, fun w s free rest hl op => ⟨fun reserved => ?illegal, fun reserved => ?runs⟩⟩
  case illegal => exact step_of_illegalCmd hl (by simp [IllegalCmd, op, reserved])
  case runs => exact step_of_decodes hl (.teardown op reserved)

/-! ### The edge body through the test port -/

/-- The live cells hold the host's answer where a producer is registered, and every other cell is as it was (R95). -/
theorem selBuffer_read (s : State) (a : Nat) :
    (selBuffer s).read a = if s.prd = true ∧ a < s.len.toNat then producedByte s a else s.buf.read a := by
  cases hp : s.prd <;> simp [selBuffer, hp]

/-- EDGE enters SELECTED from DESELECTED, and from UNKNOWN with the line high (R92). -/
theorem nextEdge_selected {e : Edge} {lvl : Bool} (h : e = .deselected ∨ (e = .unknown ∧ lvl = true)) :
    nextEdge e lvl = .selected := by
  rcases h with rfl | ⟨rfl, rfl⟩ <;> rfl

/-- EDGE leaves SELECTED at the next run, whatever the level (R92). -/
theorem nextEdge_deselected {e : Edge} (lvl : Bool) (h : e = .selected) : nextEdge e lvl = .deselected := by
  subst h; rfl

/-- Settles O16: one clause for each answer of INJECT_EDGE. -/
theorem injectEdgeRunsTheEdgeBody : Obligations.InjectEdgeRunsTheEdgeBody := by
  unfold Obligations.InjectEdgeRunsTheEdgeBody
  refine fun lvl s => ⟨fun ha => ?notActive, fun ha hl he => ?selects, fun ha he => ?deselects⟩
  case notActive => exact (Answer.injectNotActive ha).exec_eq
  case selects =>
    exact ⟨selBuffer s, selBuffer_read s, (Answer.injectSelects ha (nextEdge_selected he) hl).exec_eq⟩
  case deselects =>
    refine ⟨s.buf.zero s.len.toNat, Memory.read_zero s.buf s.len.toNat, ?_⟩
    rw [(Answer.injectDeselects ha (nextEdge_deselected lvl he)).exec_eq, deselEntry_eq]
    rfl

/-! ### RD -/

/-- No register shows what RD returned before (R47). -/
@[simp] theorem regRead_emitRd (i j : BitVec 4) (s : State) : regRead j (emitRd i s) = regRead j s := rfl

/-- Settles O17: the word is RD's encoding, and RD's one answer appends to a trace that no register shows. -/
theorem rdReturnsTheRegisterAndChangesNothing : Obligations.RdReturnsTheRegisterAndChangesNothing := by
  unfold Obligations.RdReturnsTheRegisterAndChangesNothing
  refine ⟨fun idx => ?decodes, fun _ _ => rfl, fun i j s t h => ?reads⟩
  case decodes =>
    have hword : encode (.rd idx) = .ev (0x4000#16 ||| idx.setWidth 16) := by simp [encode, field]
    exact hword ▸ decode_encode rfl
  case reads =>
    cases answer_of_exec h with
    | rd => exact regRead_emitRd i j s

end Sys2Proof.Machine
end

/-! Proofs of the family `41_select_edge.md`: the select line, the edge body behind DISPATCH_EDGE, deselect and reselect, and the latch in
step with the line. -/

section
namespace Sys2Proof.Machine

/-! ### The latch and the line -/

theorem edgeEnabled_iff {s : State} : edgeEnabled s = true ↔ s.active = true ∧ s.selAtt = true ∧ s.ssPend = true := by
  simp [edgeEnabled, and_assoc]

/-- With a change pending and the latch in step, the edge body enters the state the line is in: the first run takes the level, and a later
one toggles away from the level before the change (R92). -/
theorem State.LatchInStep.nextEdge_selected_iff {s : State} (hs : s.LatchInStep) (he : edgeEnabled s = true)
    (hlost : s.edgeLost = false) : nextEdge s.edge s.ssIn = .selected ↔ s.ssIn = true := by
  obtain ⟨-, hatt, hpend⟩ := edgeEnabled_iff.1 he
  have hstep := hs hatt hlost
  rw [hpend] at hstep
  cases hedge : s.edge with
  | unknown => cases s.ssIn <;> decide
  | deselected => simpa [hedge, nextEdge] using hstep
  | selected => simpa [hedge, nextEdge] using hstep

/-- A change of the line moves SS_IN and SS_PEND together, or is merged (R90). -/
theorem execSsLevel_latchInStep {v : Bool} {s t : State} (hs : s.LatchInStep) (h : execSsLevel v s = .next t) :
    t.LatchInStep := by
  cases (execSsLevel_eq v s).symm.trans h
  intro hatt hlost hedge
  have hatt : s.selAtt = true := hatt
  simp only [hatt, Bool.or_eq_false_iff, Bool.and_true] at hlost ⊢
  obtain ⟨hlost, hmerge⟩ := hlost
  rw [hs hatt hlost hedge]
  by_cases hv : v = s.ssIn
  · simp [hv]
  · have hpend : s.ssPend = false := by simpa [hv] using hmerge
    simp [Bool.eq_not.2 hv, hpend]

/-- Every answer of a label other than INJECT_EDGE keeps the latch in step: a CFG that succeeds and TEARDOWN leave EDGE UNKNOWN. -/
theorem Answer.latchInStep {i : Instr} {s t : State} (hi : ∀ lvl, i ≠ .injectEdge lvl) (hs : s.LatchInStep)
    (h : Answer s i t) : t.LatchInStep := by
  cases h with
  | cfgAlreadyActive | cfgZeroLength | cfgNoResource | bitNotDriven | bitShifted | byteNotDriven | byteShifted | rd => exact hs
  | cfgConfigures | teardown => exact fun _ _ hedge => absurd rfl hedge
  | injectNotActive | injectSelects | injectDeselects => exact absurd rfl (hi _)
  | ssLevel => exact execSsLevel_latchInStep hs (execSsLevel_eq _ s)
  | dispatchSelects he hn | dispatchDeselects he hn =>
    intro _ hlost _
    have hline := hs.nextEdge_selected_iff he (by simpa using hlost)
    simpa [hn] using hline
  | dispatchByte => simpa [State.LatchInStep] using hs

/-- Settles O24, answer by answer. -/
theorem latchStaysInStepWithTheLine : Obligations.LatchStaysInStepWithTheLine := by
  unfold Obligations.LatchStaysInStepWithTheLine
  exact fun i s t hi hs h => (answer_of_exec h).latchInStep hi hs

/-! ### DISPATCH_EDGE and the first run of the edge body -/

/-- Settles O21: the enable is the table's, and each enabled clause is one answer of DISPATCH_EDGE. -/
theorem dispatchEdgeRunsTheEdgeBody : Obligations.DispatchEdgeRunsTheEdgeBody := by
  unfold Obligations.DispatchEdgeRunsTheEdgeBody
  refine fun s => ⟨fun hn => ?notEnabled, fun ha hatt hp hl he => ?selects, fun ha hatt hp he => ?deselects⟩
  case notEnabled => exact if_neg fun h => hn (edgeEnabled_iff.1 h)
  case selects =>
    have henabled := edgeEnabled_iff.2 ⟨ha, hatt, hp⟩
    exact ⟨selBuffer s, selBuffer_read s, (Answer.dispatchSelects henabled (nextEdge_selected he) hl).exec_eq⟩
  case deselects =>
    have henabled := edgeEnabled_iff.2 ⟨ha, hatt, hp⟩
    refine ⟨s.buf.zero s.len.toNat, Memory.read_zero s.buf s.len.toNat, ?_⟩
    rw [(Answer.dispatchDeselects henabled (nextEdge_deselected s.ssIn he)).exec_eq, deselEntry_eq]
    rfl

/-- The first run of the edge body with the line low enters DESELECTED (R92, D17). -/
theorem nextEdge_unknown_low {e : Edge} {lvl : Bool} (he : e = .unknown) (hl : lvl = false) :
    nextEdge e lvl = .deselected := by
  subst he hl; rfl

/-- Settles O22: both labels answer with the DeselEntry of that run. -/
theorem firstEdgeRunWithTheLineLowRunsDeselEntry : Obligations.FirstEdgeRunWithTheLineLowRunsDeselEntry := by
  unfold Obligations.FirstEdgeRunWithTheLineLowRunsDeselEntry
  intro s ha he
  refine ⟨s.buf.zero s.len.toNat, Memory.read_zero s.buf s.len.toNat, ?inject, fun hatt hp hin => ?dispatch⟩
  case inject =>
    rw [(Answer.injectDeselects ha (nextEdge_unknown_low he rfl)).exec_eq, deselEntry_eq]
    rfl
  case dispatch =>
    rw [(Answer.dispatchDeselects (edgeEnabled_iff.2 ⟨ha, hatt, hp⟩) (nextEdge_unknown_low he hin)).exec_eq, deselEntry_eq]
    rfl

/-! ### Deselect, then reselect -/

/-- DeselEntry leaves zeros in the live cells (R94). -/
theorem liveBytes_deselEntry (s : State) : liveBytes (deselEntry s) = List.replicate s.len.toNat 0x00#8 := by
  rw [List.eq_replicate_iff]
  simp +contextual [liveBytes, unlistedByte]

/-- Settles O23: DeselEntry's answer is a state whose live cells are zero and whose EDGE is DESELECTED, and SelEntry runs from it. -/
theorem deselectThenReselectConsumesThenProduces : Obligations.DeselectThenReselectConsumesThenProduces := by
  unfold Obligations.DeselectThenReselectConsumesThenProduces
  intro lvl lvl' s hlegal ha he hc hp
  obtain ⟨⟨hlen, -⟩, -⟩ := (State.legal_iff_of_active ha).1 hlegal
  have hne : s.len ≠ 0#16 := by bv_omega
  refine ⟨_, (Answer.injectDeselects ha (nextEdge_deselected lvl he)).exec_eq, ?consumed, deselEntry_produceTrace _,
    deselEntry_rc _, deselEntry_sc _, ?zeroed, fun g n =>
    ⟨_, (Answer.injectSelects ?active (nextEdge_selected (.inl ?deselected)) ?positive).exec_eq, ?reselected⟩⟩
  case consumed => simp [hc, liveBytes]
  case zeroed => simp +contextual [unlistedByte]
  case active => simpa using ha
  case deselected => simp
  case positive => simpa using hne
  case reselected =>
    refine ⟨selected_consumeTrace _, ?produced, ?answered, selected_rc _, ?cursor, selected_edge _⟩
    case produced =>
      have hzeros := liveBytes_deselEntry { setErr .ok s with edge := .deselected }
      simpa [hp, liveBytes] using hzeros
    case answered =>
      intro a h
      rw [selected_buf, selBuffer_read, if_pos ⟨by simpa using hp, by simpa using h⟩]
      rfl
    case cursor => simp [nextCursor_toNat, hne]

/-! ### The select line -/

/-- Settles O20: the word is SS_LEVEL's encoding, and SS_LEVEL's one answer in the cases of R90. -/
theorem ssLevelMovesTheLine : Obligations.SsLevelMovesTheLine := by
  unfold Obligations.SsLevelMovesTheLine
  refine ⟨fun v => ?decodes, fun v s => ⟨fun h => ?noChange, fun hv ha hp => ?merged, fun hv ha hp => ?recorded⟩⟩
  case decodes =>
    have hword : encode (.ssLevel v) = .ev (0x1000#16 ||| (BitVec.ofBool v).setWidth 16) := by simp [encode, field]
    exact hword ▸ decode_encode rfl
  case noChange => rcases h with h | h <;> simp [exec, execSsLevel_eq, h]
  case merged => simp [exec, execSsLevel_eq, hv, ha, hp]
  case recorded => simp [exec, execSsLevel_eq, hv, ha, hp]

end Sys2Proof.Machine
end

/-! Proofs of the family `42_byte_clock.md`: the cursor law, one bit and one byte on the wire, the byte clock handler, and where a label
stops. -/

section
namespace Sys2Proof.Machine

/-! ### The cursor law -/

/-- A SelEntry puts RC at 0, and SC one ahead of it (R93, R112). -/
theorem Answer.cursors_of_selEntry {i : Instr} {s t : State} (h : Answer s i t) (hi : edgeAfter i s = some .selected) :
    s.len ≠ 0#16 ∧ t.len = s.len ∧ t.rc = 0#16 ∧ t.sc = nextCursor 0#16 s.len := by
  cases h with
  | injectSelects _ _ hl | dispatchSelects _ _ hl => exact ⟨hl, selected_len _, selected_rc _, selected_sc _⟩
  | injectNotActive ha => simp [edgeAfter, ha] at hi
  | injectDeselects ha hn | dispatchDeselects ha hn => simp [edgeAfter, ha, hn] at hi
  | _ => cases hi

/-- DISPATCH_BYTE advances both cursors (R110, R112). -/
theorem Answer.cursors_of_dispatchByte {s t : State} (h : Answer s .dispatchByte t) :
    s.len ≠ 0#16 ∧ t.len = s.len ∧ t.rc = nextCursor s.rc s.len ∧ t.sc = nextCursor s.sc s.len := by
  cases h with
  | dispatchByte _ hr => exact ⟨by rintro hl; simp [hl] at hr, stage_len _ _, stage_rc _ _, stage_sc _ _⟩

/-- Every other label but SelEntry, CFG and TEARDOWN leaves the cursors (R112). -/
theorem Answer.cursors_kept {i : Instr} {s t : State} (h : Answer s i t) (hi : i ≠ .dispatchByte)
    (hw : withinTransaction i s = true) : t.len = s.len ∧ t.rc = s.rc ∧ t.sc = s.sc := by
  cases h with
  | cfgAlreadyActive | cfgZeroLength | cfgNoResource | cfgConfigures | teardown => cases hw
  | injectSelects ha hn | dispatchSelects ha hn => simp [withinTransaction, edgeAfter, ha, hn] at hw
  | injectDeselects | dispatchDeselects => exact ⟨deselEntry_len _, deselEntry_rc _, deselEntry_sc _⟩
  | dispatchByte => exact absurd rfl hi
  | injectNotActive | ssLevel | bitNotDriven | bitShifted | byteNotDriven | byteShifted | rd => exact ⟨rfl, rfl, rfl⟩

/-- Settles O31, answer by answer. -/
theorem onlyTheCursorLawMovesCursors : Obligations.OnlyTheCursorLawMovesCursors := by
  unfold Obligations.OnlyTheCursorLawMovesCursors
  intro i s t _ hact h
  cases answer_of_exec h with
  | cfgAlreadyActive | ssLevel | bitNotDriven | bitShifted | byteNotDriven | byteShifted | rd | teardown => exact ⟨rfl, rfl⟩
  | cfgZeroLength hinactive | cfgNoResource hinactive | cfgConfigures hinactive | injectNotActive hinactive =>
    simp [hact] at hinactive
  | injectSelects _ _ hl | dispatchSelects _ _ hl => simp [nextCursor_toNat, hl]
  | injectDeselects | dispatchDeselects => simp
  | dispatchByte =>
    obtain ⟨hl, -, hrc, hsc⟩ := (answer_of_exec h).cursors_of_dispatchByte
    rw [hrc, hsc, nextCursor_toNat _ hl, nextCursor_toNat _ hl]
    exact ⟨rfl, rfl⟩

/-! ### The cursors throughout a transaction -/

/-- Where the cursors stand after a SelEntry and `n` DISPATCH_BYTE steps (R115). -/
def CursorsAfter (len : Half) (n : Nat) (s : State) : Prop :=
  s.len = len ∧ s.rc.toNat = n % len.toNat ∧ s.sc.toNat = (1 + n) % len.toNat

/-- A cursor that counts modulo the length goes on counting. -/
theorem nextCursor_toNat_of_mod {a len : Half} {n : Nat} (hl : len ≠ 0#16) (h : a.toNat = n % len.toNat) :
    (nextCursor a len).toNat = (n + 1) % len.toNat := by
  rw [nextCursor_toNat a hl, h, Nat.mod_add_mod]

@[simp] theorem dispatchCount_nil : dispatchCount [] = 0 := rfl

@[simp] theorem dispatchCount_append (h k : List Event) : dispatchCount (h ++ k) = dispatchCount h + dispatchCount k :=
  List.countP_append

theorem dispatchCount_singleton (e : Event) : dispatchCount [e] = if e.instr = .dispatchByte then 1 else 0 := by
  simp [dispatchCount, List.countP_singleton]

/-- A SelEntry begins the count (R93). -/
theorem Answer.cursorsAfter_zero {i : Instr} {s t : State} (h : Answer s i t) (hi : edgeAfter i s = some .selected) :
    CursorsAfter t.len 0 t := by
  obtain ⟨hl, hlen, hrc, hsc⟩ := h.cursors_of_selEntry hi
  rw [hlen]
  exact ⟨hlen, by simp [hrc], by simp [hsc, nextCursor_toNat, hl]⟩

/-- A label within the transaction keeps the count, and DISPATCH_BYTE adds one. -/
theorem CursorsAfter.of_answer {len : Half} {n : Nat} {i : Instr} {s t : State} (hs : CursorsAfter len n s)
    (hw : withinTransaction i s = true) (h : Answer s i t) : CursorsAfter len (n + dispatchCount [⟨i, s⟩]) t := by
  obtain ⟨rfl, hrc, hsc⟩ := hs
  rw [dispatchCount_singleton]
  by_cases hi : i = .dispatchByte
  · subst hi
    obtain ⟨hl, hlen, hrc', hsc'⟩ := h.cursors_of_dispatchByte
    rw [if_pos rfl, CursorsAfter, hlen, hrc', hsc', ← Nat.add_assoc]
    exact ⟨rfl, nextCursor_toNat_of_mod hl hrc, nextCursor_toNat_of_mod hl hsc⟩
  · obtain ⟨hlen, hrc', hsc'⟩ := h.cursors_kept hi hw
    rw [if_neg hi, CursorsAfter, hlen, hrc', hsc']
    exact ⟨rfl, hrc, hsc⟩

/-- So does one label of a run, an illegal command word among them. -/
theorem CursorsAfter.of_takeLabel {len : Half} {n : Nat} {e : RunLabel} {s t : State} (hs : CursorsAfter len n s)
    (hw : everyEvent withinTransaction (eventOf e s) = true) (h : takeLabel e s = .next t) :
    CursorsAfter len (n + dispatchCount (eventOf e s)) t := by
  rcases takeLabel_next h with ⟨i, hd, hx⟩ | ⟨hd, rfl⟩
  · rw [eventOf_instr hd] at hw ⊢
    have hinputs : CursorsAfter len n (e.start s) := hs
    exact hinputs.of_answer (by simpa using hw) (answer_of_exec hx)
  · simp only [eventOf, hd]
    exact hs

/-- So does every run of such labels, by induction on them. -/
theorem CursorsAfter.of_runLabels {len : Half} {n : Nat} {es : List RunLabel} {s t : State} (hs : CursorsAfter len n s)
    (hw : everyEvent withinTransaction (history es s) = true) (h : runLabels es s = .next t) :
    CursorsAfter len (n + dispatchCount (history es s)) t := by
  induction es generalizing n s with
  | nil => cases h; exact hs
  | cons e es ih =>
    obtain ⟨u, hu, ht, hh⟩ := runLabels_cons_next h
    rw [hh, everyEvent_append, Bool.and_eq_true] at hw
    obtain ⟨hfirst, hrest⟩ := hw
    rw [hh, dispatchCount_append, ← Nat.add_assoc]
    exact ih (hs.of_takeLabel hfirst hu) hrest ht

/-- Settles O32: the SelEntry begins the count, and each label of the run keeps it. -/
theorem sendCursorLeadsByOneThroughoutATransaction : Obligations.SendCursorLeadsByOneThroughoutATransaction := by
  unfold Obligations.SendCursorLeadsByOneThroughoutATransaction
  intro j g d es s₀ s t hj hs hw h
  have hstart := (answer_of_exec hs).cursorsAfter_zero hj
  obtain ⟨hlen, hrc, hsc⟩ := hstart.of_runLabels hw h
  rw [Nat.zero_add] at hrc hsc
  exact ⟨hsc, hrc, hlen⟩

/-! ### One bit on the wire -/

/-- With MSB_FIRST one bit enters at the bottom (R108). -/
theorem shiftIn_msbFirst (r : Byte) (b : Bool) : shiftIn .msbFirst r b = (r <<< 1) ||| (BitVec.ofBool b).setWidth 8 := by
  refine BitVec.eq_of_getLsbD_eq fun i hi => ?_
  rw [getLsbD_shiftIn_msbFirst r b i hi]
  interval_cases i <;> simp

/-- With LSB_FIRST one bit enters at the top (R108). -/
theorem shiftIn_lsbFirst (r : Byte) (b : Bool) :
    shiftIn .lsbFirst r b = (r >>> 1) ||| ((BitVec.ofBool b).setWidth 8 <<< 7) := by
  refine BitVec.eq_of_getLsbD_eq fun i hi => ?_
  rw [getLsbD_shiftIn_lsbFirst r b i hi]
  interval_cases i <;> simp

/-- SHEN, with the active level of the select line written out (R107). -/
theorem shiftEnabled_eq (s : State) : shiftEnabled s = (s.active && (!s.selAtt || s.ssIn)) := by
  simp [shiftEnabled, Config.selActiveLevel]

/-- Settles O25: SCK_BIT has one answer for each value of shift enable, and the shift of R108 is the one of `shiftIn`. -/
theorem sckBitShiftsOneBit : Obligations.SckBitShiftsOneBit := by
  unfold Obligations.SckBitShiftsOneBit
  refine ⟨fun b => ?decodes, fun s ha hin => ?abandons, fun mosi s => ?_⟩
  case decodes =>
    have hword : encode (.sckBit b) = .ev (0x2000#16 ||| (BitVec.ofBool b).setWidth 16) := by simp [encode, field]
    exact hword ▸ decode_encode rfl
  case abandons => exact ⟨_, Answer.ssLevel.exec_eq, by simp [ha, hin], rfl⟩
  intro shen first last sr0 sr1 out
  refine ⟨fun hs => ?disabled, fun hs => ?enabled⟩
  case disabled => exact (Answer.bitNotDriven ((shiftEnabled_eq s).trans hs)).exec_eq
  case enabled =>
    have hsource : shiftSource s = sr0 := by simp [shiftSource, sr0, first]
    have hin : shiftIn s.par.bitOrder (shiftSource s) mosi = sr1 := by
      rw [hsource]
      cases ho : s.par.bitOrder <;> simp only [sr1, ho, shiftIn_msbFirst, shiftIn_lsbFirst]
    have hout : outBit s.par.bitOrder (shiftSource s) = out := by
      rw [hsource]
      cases ho : s.par.bitOrder <;> simp only [out, ho, outBit]
    have hcount : (if last then 0#3 else s.bitCnt + 1#3) = s.bitCnt + 1#3 := by
      by_cases h7 : s.bitCnt = 7#3 <;> simp [last, h7]
    rw [(Answer.bitShifted ((shiftEnabled_eq s).trans hs)).exec_eq, hin, hout, hcount]
    by_cases h0 : s.bitCnt = 0#3
    · simp [first, last, h0, Bool.or_comm]
    · by_cases h7 : s.bitCnt = 7#3 <;> simp [first, last, h0, h7, Bool.or_comm]

/-! ### A byte on the wire -/

/-- SCK_BIT steps one after the other, under one set of free inputs, are the clocked bits. -/
theorem execAll_sckBits (bs : List Bool) (s : State) :
    execAll (bs.map Instr.sckBit) s = .next (bs.foldl (fun t b => clockBit b t) s) := by
  induction bs generalizing s with
  | nil => rfl
  | cons b bs ih => exact ih (clockBit b s)

/-- Settles O26: BYTE is its bits clocked one by one, and has one answer for each value of shift enable. -/
theorem byteIsEightBitsAndExchangesAByte : Obligations.ByteIsEightBitsAndExchangesAByte := by
  unfold Obligations.ByteIsEightBitsAndExchangesAByte
  refine ⟨fun m => ?decodes, fun m s => ?_⟩
  case decodes =>
    have hword : encode (.byte m) = .ev (0x3000#16 ||| m.setWidth 16) := by simp [encode, field]
    exact hword ▸ decode_encode rfl
  intro wire shen
  have hwire : wire = wireBits s.par.bitOrder := by
    funext x
    cases ho : s.par.bitOrder <;> simp only [wire, ho, wireBits, List.map]
  rw [hwire]
  refine ⟨fun h0 => ?refused, fun h0 => ?bits, fun h0 hs => ?disabled, fun h0 hs => ?enabled⟩
  case refused => exact if_neg h0
  case bits => exact (if_pos h0).trans (execAll_sckBits _ s).symm
  case disabled => exact (Answer.byteNotDriven ((shiftEnabled_eq s).trans hs) h0).exec_eq
  case enabled =>
    rw [(Answer.byteShifted ((shiftEnabled_eq s).trans hs) h0).exec_eq]
    cases hv : s.txValid <;> cases hp : s.tcPend <;> simp [loadedByte, hv]

/-- Settles O52: with a byte staged and none unhandled, BYTE reads neither `dl` nor `dr`. -/
theorem hazardFreeByteIgnoresFreeInputs : Obligations.HazardFreeByteIgnoresFreeInputs := by
  unfold Obligations.HazardFreeByteIgnoresFreeInputs
  intro m s g n h0 hv hp
  cases hs : shiftEnabled s
  · exact ⟨_, execByte_disabled m hs h0, execByte_disabled (s := s.withInputs g n) m hs h0⟩
  · refine ⟨_, execByte_enabled m hs h0, (execByte_enabled (s := s.withInputs g n) m hs h0).trans ?_⟩
    simp [loadedByte, hv, hp, State.withInputs]

/-! ### The byte clock handler -/

/-- Settles O27: in time a stage takes its byte, and late it does what the free input says. -/
theorem stageWritesOrDropsTheByte : Obligations.StageWritesOrDropsTheByte := by
  unfold Obligations.StageWritesOrDropsTheByte
  refine fun v s => ⟨fun h0 => ?inTime, fun h0 hc => ?takes, fun h0 hc => ?drops⟩
  case inTime => exact stage_of_aligned v h0
  case takes => simp [stage_eq, hc]
  case drops => simp [stage_eq, h0, hc]

theorem byteEnabled_iff {s : State} : byteEnabled s = true ↔ s.active = true ∧ s.tcPend = true := by simp [byteEnabled]

/-- Settles O28: DISPATCH_BYTE's one answer, whose buffer is the store at RC. -/
theorem dispatchByteStoresThenStages : Obligations.DispatchByteStoresThenStages := by
  unfold Obligations.DispatchByteStoresThenStages
  refine ⟨(Decodes.dispatchByte rfl rfl).decode_eq, fun s => ⟨fun hn t h => ?notEnabled, fun ha hp hr hs => ?enabled⟩⟩
  case notEnabled =>
    cases answer_of_exec h with
    | dispatchByte he => exact hn (byteEnabled_iff.1 he)
  case enabled =>
    exact ⟨s.buf.write s.rc.toNat s.rxReg, Memory.read_write s.buf s.rc.toNat s.rxReg,
      (Answer.dispatchByte (byteEnabled_iff.2 ⟨ha, hp⟩) hr hs).exec_eq⟩

/-- Settles O30: the store comes before the load, and both cursors of a buffer of one byte are 0. -/
theorem equalCursorsEchoTheReceivedByte : Obligations.EqualCursorsEchoTheReceivedByte := by
  unfold Obligations.EqualCursorsEchoTheReceivedByte
  refine ⟨fun s ha hp hr heq h0 => ?echoes, fun s hs ha hl => ?oneCell⟩
  case echoes =>
    have hsc : s.sc < s.len := heq ▸ hr
    exact ⟨_, execDispatchByte_aligned (byteEnabled_iff.2 ⟨ha, hp⟩) hr hsc h0, by simp [heq], rfl, by simp⟩
  case oneCell =>
    obtain ⟨⟨-, -, hr, hsc⟩, -⟩ := (State.legal_iff_of_active ha).1 hs
    bv_omega

/-! ### Where a label stops -/

/-- `Refuses s i r`: from `s`, the spec gives instruction `i` no step, for the reason `r`. -/
inductive Refuses (s : State) : Instr → Refusal → Prop where
  | byteNotAligned {m : Byte} (misaligned : s.bitCnt ≠ 0#3) : Refuses s (.byte m) .byteNotAligned
  | dispatchEdgeNotEnabled (disabled : edgeEnabled s = false) : Refuses s .dispatchEdge .dispatchEdgeNotEnabled
  | dispatchByteNotEnabled (disabled : byteEnabled s = false) : Refuses s .dispatchByte .dispatchByteNotEnabled

theorem Refuses.exec_eq {i : Instr} {s : State} {r : Refusal} (h : Refuses s i r) : exec i s = .refused r := by
  cases h with
  | byteNotAligned h0 => exact if_neg h0
  | dispatchEdgeNotEnabled he => simp [exec, execDispatchEdge, he]
  | dispatchByteNotEnabled he => simp [exec, execDispatchByte, he]

theorem nextEdge_cases (e : Edge) (lvl : Bool) : nextEdge e lvl = .selected ∨ nextEdge e lvl = .deselected := by
  cases e <;> cases lvl <;> decide

theorem State.Legal.len_ne_zero {s : State} (hs : s.Legal) (ha : s.active = true) : s.len ≠ 0#16 := by
  obtain ⟨⟨hlen, -⟩, -⟩ := (State.legal_iff_of_active ha).1 hs
  bv_omega

/-- From a legal state every label answers a next state or is refused: the accesses to the buffer stay below LEN (R41, R8). -/
theorem answers_or_refuses {s : State} (hs : s.Legal) (i : Instr) : (∃ t, Answer s i t) ∨ ∃ r, Refuses s i r := by
  cases i with
  | cfg prd cns pin len =>
    left
    cases ha : s.active with
    | true => exact ⟨_, .cfgAlreadyActive ha⟩
    | false =>
      rcases eq_or_ne len 0#16 with rfl | hl
      · exact ⟨_, .cfgZeroLength ha⟩
      · by_cases hb : s.par.bufMax < len
        · exact ⟨_, .cfgNoResource ha hl hb⟩
        · exact ⟨_, .cfgConfigures ha hl (BitVec.not_lt.1 hb)⟩
  | teardown => exact .inl ⟨_, .teardown⟩
  | injectEdge lvl =>
    left
    cases ha : s.active with
    | false => exact ⟨_, .injectNotActive ha⟩
    | true =>
      rcases nextEdge_cases s.edge lvl with hn | hn
      · exact ⟨_, .injectSelects ha hn (hs.len_ne_zero ha)⟩
      · exact ⟨_, .injectDeselects ha hn⟩
  | ssLevel v => exact .inl ⟨_, .ssLevel⟩
  | sckBit b => exact .inl ⟨_, answer_of_exec rfl⟩
  | byte m =>
    by_cases h0 : s.bitCnt = 0#3
    · exact .inl ⟨_, answer_of_exec (if_pos h0)⟩
    · exact .inr ⟨_, .byteNotAligned h0⟩
  | rd idx => exact .inl ⟨_, .rd⟩
  | dispatchEdge =>
    cases he : edgeEnabled s with
    | false => exact .inr ⟨_, .dispatchEdgeNotEnabled he⟩
    | true =>
      left
      rcases nextEdge_cases s.edge s.ssIn with hn | hn
      · exact ⟨_, .dispatchSelects he hn (hs.len_ne_zero (active_of_edgeEnabled he))⟩
      · exact ⟨_, .dispatchDeselects he hn⟩
  | dispatchByte =>
    cases he : byteEnabled s with
    | false => exact .inr ⟨_, .dispatchByteNotEnabled he⟩
    | true =>
      obtain ⟨⟨-, -, hr, hsc⟩, -⟩ := (State.legal_iff_of_active (active_of_byteEnabled he)).1 hs
      exact .inl ⟨_, .dispatchByte he hr hsc⟩

/-- Settles O36: the label answers, and then it neither faults nor is refused, or it is refused for one of three reasons. -/
theorem legalStatesStopOnlyWhereTheSpecDoes : Obligations.LegalStatesStopOnlyWhereTheSpecDoes := by
  unfold Obligations.LegalStatesStopOnlyWhereTheSpecDoes
  intro i s hs
  rcases answers_or_refuses hs i with ⟨t, ht⟩ | ⟨r, hr⟩
  · rw [ht.exec_eq]
    exact ⟨nofun, nofun⟩
  · rw [hr.exec_eq]
    refine ⟨nofun, fun _ h => ?_⟩
    cases h
    cases hr with
    | byteNotAligned h0 => exact .inl ⟨⟨_, rfl⟩, h0, rfl⟩
    | dispatchEdgeNotEnabled he => exact .inr (.inl ⟨rfl, he, rfl⟩)
    | dispatchByteNotEnabled he => exact .inr (.inr ⟨rfl, he, rfl⟩)

end Sys2Proof.Machine
end

/-! Proofs of the family `60_exceptions.md`: when a label has a step, what the core takes by itself, how a run drains its dispatches, and
what a failing command and a single bit leave unchanged. -/

section
namespace Sys2Proof.Machine

/-! ### When a label has a step -/

/-- A label that answers was enabled (R131). -/
theorem Answer.enabled {i : Instr} {s t : State} (h : Answer s i t) : enabled i s := by
  cases h with
  | byteNotDriven _ aligned | byteShifted _ aligned => exact aligned
  | dispatchSelects he | dispatchDeselects he => exact edgeEnabled_iff.1 he
  | dispatchByte he => exact byteEnabled_iff.1 he
  | _ => exact trivial

/-- A label that is refused was not enabled (R131). -/
theorem Refuses.not_enabled {i : Instr} {s : State} {r : Refusal} (h : Refuses s i r) : ¬ enabled i s := by
  cases h with
  | byteNotAligned misaligned => exact misaligned
  | dispatchEdgeNotEnabled he => exact fun hi => by simp [edgeEnabled_iff.2 hi] at he
  | dispatchByteNotEnabled he => exact fun hi => by simp [byteEnabled_iff.2 hi] at he

/-- From a legal state an enabled label has an answer. -/
theorem exists_answer_of_enabled {s : State} (hs : s.Legal) {i : Instr} (hi : enabled i s) : ∃ t, Answer s i t :=
  (answers_or_refuses hs i).resolve_right fun ⟨_, hr⟩ => hr.not_enabled hi

/-- Settles O35: an answer comes from an enabled label, and a legal state answers every enabled one. -/
theorem labelsStepExactlyWhenEnabled : Obligations.LabelsStepExactlyWhenEnabled := by
  unfold Obligations.LabelsStepExactlyWhenEnabled
  intro i s hs
  constructor
  · rintro ⟨t, h⟩
    exact (answer_of_exec h).enabled
  · intro hi
    obtain ⟨t, ht⟩ := exists_answer_of_enabled hs hi
    exact ⟨t, ht.exec_eq⟩

/-! ### What the core takes by itself -/

/-- The core chooses a dispatch that is enabled (R132). -/
theorem coreChoice_eq_some {s : State} {i : Instr} (h : coreChoice s = some i) :
    (i = .dispatchEdge ∧ edgeEnabled s = true) ∨ (i = .dispatchByte ∧ byteEnabled s = true) := by
  unfold coreChoice at h
  split at h
  next hedge => cases h; exact .inl ⟨rfl, (Bool.and_eq_true_iff.1 hedge).1⟩
  next =>
    split at h
    next hbyte => cases h; exact .inr ⟨rfl, hbyte⟩
    next => cases h

/-- The core chooses no dispatch only where none is enabled (R157). -/
theorem coreChoice_eq_none_iff {s : State} : coreChoice s = none ↔ edgeEnabled s = false ∧ byteEnabled s = false := by
  unfold coreChoice
  cases byteEnabled s with
  | false => cases edgeEnabled s <;> simp
  | true => simp [apply_ite (· = none)]

theorem enabled_of_coreChoice {s : State} {i : Instr} (h : coreChoice s = some i) (g : FreeInputs) (n : Nat) :
    enabled i (s.withInputs g n) := by
  rcases coreChoice_eq_some h with ⟨rfl, he⟩ | ⟨rfl, hb⟩
  · exact edgeEnabled_iff.1 he
  · exact byteEnabled_iff.1 hb

/-- With no label left, a step runs the dispatch the core chooses. -/
theorem step_of_coreChoice {s : State} {i : Instr} (hl : s.labels = []) (h : coreChoice s = some i) :
    step s = exec i (s.withInputs .unwritten (s.drawNo + 1)) := by
  have hbegin : beginLabel .unwritten [] s = s.withInputs .unwritten (s.drawNo + 1) := by rw [← hl]; rfl
  simp only [step, fetch, hl, h, hbegin]

/-- With no label left and no dispatch to choose, the machine stays as it is. -/
theorem step_of_coreChoice_none {s : State} (hl : s.labels = []) (h : coreChoice s = none) : step s = .next s :=
  step_of_nextLabel_none (by simp [nextLabel, hl, h])

/-- A quiescent machine stays as it is (R157). -/
theorem State.Quiescent.step_eq {s : State} (h : s.Quiescent) : step s = .next s := by
  obtain ⟨hl, he, hb⟩ := h
  exact step_of_coreChoice_none hl (coreChoice_eq_none_iff.2 ⟨he, hb⟩)

/-- Settles O10: one clause for each pair of enables, and the step runs what the core chooses. -/
theorem emptyScheduleLetsTheCoreDispatch : Obligations.EmptyScheduleLetsTheCoreDispatch := by
  unfold Obligations.EmptyScheduleLetsTheCoreDispatch
  refine fun s hl => ⟨fun he hb => ?edge, fun he hb => ?byte, fun he hb => ?both, fun he hb => ?none⟩
  case edge => exact step_of_coreChoice hl (by simp [coreChoice, he, hb])
  case byte => exact step_of_coreChoice hl (by simp [coreChoice, he, hb])
  case both =>
    cases hc : coreChoice s with
    | none => exact absurd (coreChoice_eq_none_iff.1 hc).1 (by simp [he])
    | some i =>
      rcases coreChoice_eq_some hc with ⟨rfl, -⟩ | ⟨rfl, -⟩
      · exact .inl (step_of_coreChoice hl hc)
      · exact .inr (step_of_coreChoice hl hc)
  case none => exact State.Quiescent.step_eq ⟨hl, he, hb⟩

/-! ### A run drains its dispatches -/

/-- How many dispatches are enabled. -/
def enabledDispatches (s : State) : Nat := (edgeEnabled s).toNat + (byteEnabled s).toNat

theorem enabledDispatches_le_two (s : State) : enabledDispatches s ≤ 2 := by
  have := Bool.toNat_le (edgeEnabled s)
  have := Bool.toNat_le (byteEnabled s)
  unfold enabledDispatches
  omega

/-- DISPATCH_EDGE uses up its own enable and leaves the other (R91). -/
theorem Answer.enables_of_dispatchEdge {s t : State} (h : Answer s .dispatchEdge t) :
    edgeEnabled s = true ∧ edgeEnabled t = false ∧ byteEnabled t = byteEnabled s := by
  cases h with
  | dispatchSelects he | dispatchDeselects he => exact ⟨he, by simp [edgeEnabled], by simp [byteEnabled]⟩

/-- DISPATCH_BYTE uses up its own enable and leaves the other (R110). -/
theorem Answer.enables_of_dispatchByte {s t : State} (h : Answer s .dispatchByte t) :
    byteEnabled s = true ∧ byteEnabled t = false ∧ edgeEnabled t = edgeEnabled s := by
  cases h with
  | dispatchByte he => exact ⟨he, by simp [byteEnabled], by simp [edgeEnabled]⟩

/-- Either dispatch leaves one enabled dispatch less. -/
theorem Answer.enabledDispatches_eq {i : Instr} {s t : State} (h : Answer s i t) (hi : i = .dispatchEdge ∨ i = .dispatchByte) :
    enabledDispatches t = enabledDispatches s - 1 := by
  rcases hi with rfl | rfl
  · obtain ⟨hs, ht, hother⟩ := h.enables_of_dispatchEdge
    simp [enabledDispatches, hs, ht, hother]
  · obtain ⟨hs, ht, hother⟩ := h.enables_of_dispatchByte
    simp [enabledDispatches, hs, ht, hother]

/-- With no label left, a step schedules none and takes one of the dispatches that are enabled. -/
theorem step_unscheduled_next {s t : State} (hl : s.labels = []) (h : step s = .next t) :
    t.labels = [] ∧ enabledDispatches t = enabledDispatches s - 1 := by
  cases hc : coreChoice s with
  | none =>
    cases (step_of_coreChoice_none hl hc).symm.trans h
    obtain ⟨he, hb⟩ := coreChoice_eq_none_iff.1 hc
    exact ⟨hl, by simp [enabledDispatches, he, hb]⟩
  | some i =>
    have ht := answer_of_exec ((step_of_coreChoice hl hc).symm.trans h)
    obtain ⟨-, hlabels, -⟩ := ht.keeps_parameters_and_schedule
    exact ⟨hlabels.trans hl, ht.enabledDispatches_eq ((coreChoice_eq_some hc).imp And.left And.left)⟩

/-- With a label scheduled, a step leaves the rest of the schedule. -/
theorem labels_of_step_scheduled {s t : State} {x : Scheduled} {rest : List Scheduled} (hl : s.labels = x :: rest)
    (h : step s = .next t) : t.labels = rest := by
  rw [step_scheduled hl] at h
  rcases takeLabel_next h with ⟨i, -, hx⟩ | ⟨-, rfl⟩
  · exact (answer_of_exec hx).keeps_parameters_and_schedule.2.1
  · rfl

/-- A bound on the steps that can still change the machine: once the schedule is over, the dispatches enabled; before that, the labels left
and both dispatches, since a label may enable either. -/
def drainBound (s : State) : Nat := if s.labels = [] then enabledDispatches s else s.labels.length + 2

theorem drainBound_le (s : State) : drainBound s ≤ s.labels.length + 2 := by
  have := enabledDispatches_le_two s
  unfold drainBound
  split <;> omega

/-- The machine is quiescent when nothing more can change it (R157). -/
theorem quiescent_iff_drainBound_eq_zero {s : State} : s.Quiescent ↔ drainBound s = 0 := by
  by_cases hl : s.labels = [] <;> simp [drainBound, State.Quiescent, enabledDispatches, hl]

/-- Every step brings the machine one nearer to quiescence, by a label of the schedule or by a dispatch (R133). -/
theorem drainBound_step {s t : State} (h : step s = .next t) : drainBound t ≤ drainBound s - 1 := by
  cases hl : s.labels with
  | cons x rest =>
    have ht := drainBound_le t
    rw [labels_of_step_scheduled hl h] at ht
    simpa [drainBound, hl] using ht
  | nil =>
    obtain ⟨hlt, ht⟩ := step_unscheduled_next hl h
    simp [drainBound, hl, hlt, ht]

theorem drainBound_runFor {k : Nat} {s t : State} (h : runFor k s = .next t) : drainBound t ≤ drainBound s - k := by
  induction k generalizing s with
  | zero => cases h; exact Nat.le_refl _
  | succ k ih =>
    obtain ⟨u, hu, hk⟩ := andThen_eq_next h
    have := drainBound_step hu
    have := ih hk
    omega

/-- A run of at least the schedule's length and two more steps ends quiescent. -/
theorem quiescent_of_runFor {s t : State} {k : Nat} (hk : s.labels.length + 2 ≤ k) (h : runFor k s = .next t) : t.Quiescent := by
  have := drainBound_le s
  have := drainBound_runFor h
  exact quiescent_iff_drainBound_eq_zero.2 (by omega)

/-- A legal machine with no label left does not stop, and stays legal with no label left. -/
theorem exists_step_unscheduled {s : State} (hs : s.Legal) (hl : s.labels = []) :
    ∃ t, step s = .next t ∧ t.Legal ∧ t.labels = [] := by
  have hstep : ∃ t, step s = .next t := by
    cases hc : coreChoice s with
    | none => exact ⟨s, step_of_coreChoice_none hl hc⟩
    | some i =>
      obtain ⟨t, ht⟩ := exists_answer_of_enabled (s := s.withInputs .unwritten (s.drawNo + 1)) hs (enabled_of_coreChoice hc _ _)
      exact ⟨t, (step_of_coreChoice hl hc).trans ht.exec_eq⟩
  obtain ⟨t, ht⟩ := hstep
  exact ⟨t, ht, stepKeepsTheInvariants s t hs ht, (step_unscheduled_next hl ht).1⟩

/-- Settles O53: every step lowers the bound on the steps still to come, and from a legal state two steps of the core do not stop. -/
theorem everyRunDrainsItsDispatches : Obligations.EveryRunDrainsItsDispatches := by
  unfold Obligations.EveryRunDrainsItsDispatches
  refine ⟨fun s t k => quiescent_of_runFor, fun s hs hl => ?_⟩
  obtain ⟨u, hu, hus, hul⟩ := exists_step_unscheduled hs hl
  obtain ⟨t, ht, -, -⟩ := exists_step_unscheduled hus hul
  have hrun : runFor 2 s = .next t := by simp [runFor, hu, ht]
  have hq : t.Quiescent := quiescent_of_runFor (by simp [hl]) hrun
  exact ⟨t, hrun, hq, by simp [runFor, hu, ht, hq.step_eq]⟩

/-! ### A failing command and a single bit -/

/-- Settles O38: a failure answers the old state with its code, and every other answer of a command leaves ERR 0. -/
theorem failingCommandChangesOnlyErr : Obligations.FailingCommandChangesOnlyErr := by
  unfold Obligations.FailingCommandChangesOnlyErr
  intro i s t hi h herr
  cases answer_of_exec h with
  | cfgAlreadyActive | cfgZeroLength | cfgNoResource | injectNotActive => rfl
  | cfgConfigures | teardown => exact absurd rfl herr
  | injectSelects => exact absurd (selected_err _) herr
  | injectDeselects => exact absurd (deselEntry_err _) herr
  | _ => simp at hi

/-- Settles O40: the bit that may raise STALE_TX is a byte's first, and the one that may raise OVERRUN its eighth. -/
theorem oneBitSetsAtMostOneHazardFlag : Obligations.OneBitSetsAtMostOneHazardFlag := by
  unfold Obligations.OneBitSetsAtMostOneHazardFlag
  intro b s t h
  cases answer_of_exec h with
  | bitNotDriven => exact ⟨rfl, rfl, .inl rfl⟩
  | bitShifted =>
    refine ⟨rfl, rfl, ?_⟩
    by_cases hfirst : s.bitCnt = 0#3
    · exact .inr (by simp [hfirst])
    · exact .inl (by simp [hfirst])

end Sys2Proof.Machine
end

/-! Proofs of the family `70_reset_and_hazards.md`: reset, what cannot be observed, the launch premises of R158, and the last byte pending at a
deselect. -/

section
namespace Sys2Proof.Machine

/-! ### SR before a load and the cells that are not live -/

/-- The observably equal states of `s`: any SR between bytes, and any buffer with the same live cells. -/
theorem State.sameObservable_iff {s t : State} : s.SameObservable t ↔
    ∃ sr buf, t = { s with sr := sr, buf := buf } ∧ (s.bitCnt ≠ 0#3 → sr = s.sr) ∧
      ∀ a, a < s.len.toNat → Memory.read buf a = s.buf.read a := by
  constructor
  · intro h; exact ⟨t.sr, t.buf, h⟩
  · rintro ⟨sr, buf, rfl, h⟩; exact ⟨rfl, h⟩

theorem State.SameObservable.symm {s t : State} (h : s.SameObservable t) : t.SameObservable s := by
  obtain ⟨sr, buf, rfl, hsr, hbuf⟩ := State.sameObservable_iff.1 h
  exact ⟨rfl, fun h0 => (hsr h0).symm, fun a ha => (hbuf a ha).symm⟩

/-- The snapshot and the producer's argument are the live cells (R95, R96). -/
theorem liveBytes_eq_of_read_eq {s t : State} (hl : t.len = s.len)
    (h : ∀ a, a < s.len.toNat → t.buf.read a = s.buf.read a) : liveBytes t = liveBytes s := by
  rw [liveBytes, liveBytes, hl]
  exact List.map_congr_left fun a ha => h a (List.mem_range.1 ha)

/-- SelEntry from observably equal states: it stages live cell 0 and hands over the live cells (R93, R95). -/
theorem State.SameObservable.selected {s t : State} (h : s.SameObservable t) (hl : s.len ≠ 0#16) :
    (selected s).SameObservable (selected t) := by
  obtain ⟨sr, buf, rfl, hsr, hbuf⟩ := State.sameObservable_iff.1 h
  have hread : ∀ a, a < s.len.toNat → (selBuffer { s with sr := sr, buf := buf }).read a = (selBuffer s).read a := by
    intro a ha
    rw [selBuffer_read, selBuffer_read, hbuf a ha]
    rfl
  have hzero := hread 0 (by bv_omega)
  have hlive : liveBytes { s with sr := sr, buf := buf } = liveBytes s := liveBytes_eq_of_read_eq rfl hbuf
  refine ⟨?_, by simpa using hsr, by simpa using hread⟩
  simp only [Sys2Proof.Machine.selected, stage_eq, hzero, hlive]
  rfl

/-- DeselEntry from observably equal states: it snapshots the live cells and zeroes them (R94). -/
theorem State.SameObservable.deselEntry {s t : State} (h : s.SameObservable t) :
    (deselEntry s).SameObservable (deselEntry t) := by
  obtain ⟨sr, buf, rfl, hsr, hbuf⟩ := State.sameObservable_iff.1 h
  have hlive : liveBytes { s with sr := sr, buf := buf } = liveBytes s := liveBytes_eq_of_read_eq rfl hbuf
  refine ⟨?_, by simpa using hsr, by simp +contextual⟩
  simp only [deselEntry_eq, hlive]

/-- One bit reads SR only where BITCNT is not 0, and a byte's first bit loads it (R108). -/
theorem shiftSource_congr {s : State} {sr : Byte} {buf : Memory} (h : s.bitCnt ≠ 0#3 → sr = s.sr) :
    shiftSource { s with sr := sr, buf := buf } = shiftSource s := by
  by_cases h0 : s.bitCnt = 0#3
  · simp [shiftSource, h0, staleByte]
  · simp [shiftSource, h0, h h0]

/-- Every answer from one of two observably equal states has an observably equal answer from the other. -/
theorem Answer.sameObservable {i : Instr} {s s' t : State} (h : Answer s i s') (hst : s.SameObservable t) :
    ∃ t', Answer t i t' ∧ s'.SameObservable t' := by
  obtain ⟨sr, buf, rfl, hsr, hbuf⟩ := State.sameObservable_iff.1 hst
  cases h with
  | cfgAlreadyActive ha => exact ⟨_, .cfgAlreadyActive ha, rfl, hsr, hbuf⟩
  | cfgZeroLength ha => exact ⟨_, .cfgZeroLength ha, rfl, hsr, hbuf⟩
  | cfgNoResource ha hl hb => exact ⟨_, .cfgNoResource ha hl hb, rfl, hsr, hbuf⟩
  | cfgConfigures ha hl hb => exact ⟨_, .cfgConfigures ha hl hb, rfl, by simp [configured], by simp +contextual [configured]⟩
  | teardown => exact ⟨_, .teardown, rfl, by simp [tornDown], by simp [tornDown]⟩
  | injectNotActive ha => exact ⟨_, .injectNotActive ha, rfl, hsr, hbuf⟩
  | injectSelects ha hn hl => exact ⟨_, .injectSelects ha hn hl, .selected ⟨rfl, hsr, hbuf⟩ hl⟩
  | injectDeselects ha hn => exact ⟨_, .injectDeselects ha hn, .deselEntry ⟨rfl, hsr, hbuf⟩⟩
  | ssLevel =>
    refine ⟨_, .ssLevel, rfl, fun h0 => hsr fun h => h0 ?_, hbuf⟩
    simp [h]
  | bitNotDriven he => exact ⟨_, .bitNotDriven he, rfl, hsr, hbuf⟩
  | bitShifted he =>
    have hsource := shiftSource_congr (buf := buf) hsr
    exact ⟨_, .bitShifted he, by rw [hsource]; rfl, fun _ => by rw [hsource], hbuf⟩
  | byteNotDriven he h0 => exact ⟨_, .byteNotDriven he h0, rfl, hsr, hbuf⟩
  | byteShifted he h0 => exact ⟨_, .byteShifted he h0, rfl, fun _ => rfl, hbuf⟩
  | rd => exact ⟨_, .rd, rfl, hsr, hbuf⟩
  | dispatchSelects he hn hl => exact ⟨_, .dispatchSelects he hn hl, .selected ⟨rfl, hsr, hbuf⟩ hl⟩
  | dispatchDeselects he hn => exact ⟨_, .dispatchDeselects he hn, .deselEntry ⟨rfl, hsr, hbuf⟩⟩
  | dispatchByte he hr hs =>
    have hread : ∀ a, a < s.len.toNat →
        (buf.write s.rc.toNat s.rxReg).read a = (s.buf.write s.rc.toNat s.rxReg).read a := by
      intro a ha
      rw [Memory.read_write, Memory.read_write, hbuf a ha]
    refine ⟨_, .dispatchByte he hr hs, ?_, by simpa using hsr, by simpa using hread⟩
    simp only [stage_eq, hread _ hs]
    rfl

/-! ### What stops an instruction -/

theorem stageNext_ne_refused (s : State) (r : Refusal) : stageNext s ≠ .refused r := by
  unfold stageNext
  split <;> nofun

theorem edgeBody_ne_refused (lvl : Bool) (s : State) (r : Refusal) : edgeBody lvl s ≠ .refused r := by
  simp only [edgeBody]
  split
  · exact stageNext_ne_refused _ r
  · nofun

/-- An instruction is refused for no other reason than the three of `Refuses`, in any state. -/
theorem refuses_of_exec {i : Instr} {s : State} {r : Refusal} (h : exec i s = .refused r) : Refuses s i r := by
  cases i with
  | cfg prd cns pin len =>
    simp only [exec, execCfg, failCmd] at h
    split_ifs at h
  | teardown | ssLevel _ | sckBit _ | rd _ => cases h
  | injectEdge lvl =>
    simp only [exec, execInjectEdge, failCmd] at h
    split_ifs at h
    exact absurd h (edgeBody_ne_refused _ _ r)
  | byte m =>
    simp only [exec, execByte] at h
    split_ifs at h with h0
    cases h
    exact .byteNotAligned h0
  | dispatchEdge =>
    simp only [exec, execDispatchEdge] at h
    split_ifs at h with he
    · exact absurd h (edgeBody_ne_refused _ _ r)
    · cases h
      exact .dispatchEdgeNotEnabled (Bool.eq_false_iff.2 he)
  | dispatchByte =>
    simp only [exec, execDispatchByte, memWrite] at h
    split_ifs at h with he hr
    · exact absurd h (stageNext_ne_refused _ r)
    · cases h
    · cases h
      exact .dispatchByteNotEnabled (Bool.eq_false_iff.2 he)

/-- In any state an instruction answers, is refused, or accesses a cell that is not live (R8, log 11). -/
theorem answers_refuses_or_faults (i : Instr) (s : State) :
    (∃ t, Answer s i t) ∨ (∃ r, Refuses s i r) ∨ exec i s = .fault .cellNotLive := by
  cases h : exec i s with
  | next t => exact .inl ⟨t, answer_of_exec h⟩
  | fault f => cases f; exact .inr (.inr rfl)
  | refused r => exact .inr (.inl ⟨r, refuses_of_exec h⟩)

/-- What refuses an instruction is observable. -/
theorem Refuses.of_sameObservable {i : Instr} {s t : State} {r : Refusal} (h : Refuses s i r) (hst : s.SameObservable t) :
    Refuses t i r := by
  obtain ⟨sr, buf, rfl, -⟩ := State.sameObservable_iff.1 hst
  cases h with
  | byteNotAligned h0 => exact .byteNotAligned h0
  | dispatchEdgeNotEnabled he => exact .dispatchEdgeNotEnabled he
  | dispatchByteNotEnabled he => exact .dispatchByteNotEnabled he

/-- Settles O50: the states answer alike, or are refused alike, and the one reason left is a fault of both. -/
theorem unspecifiedContentsCannotBeObserved : Obligations.UnspecifiedContentsCannotBeObserved := by
  unfold Obligations.UnspecifiedContentsCannotBeObserved
  intro i s t hst
  rcases answers_refuses_or_faults i s with ⟨s', hs⟩ | ⟨r, hs⟩ | hs
  · obtain ⟨t', ht, hst'⟩ := hs.sameObservable hst
    rw [hs.exec_eq, ht.exec_eq]
    exact hst'
  · rw [hs.exec_eq, (hs.of_sameObservable hst).exec_eq]
    rfl
  · rcases answers_refuses_or_faults i t with ⟨t', ht⟩ | ⟨r, ht⟩ | ht
    · obtain ⟨s', hs', -⟩ := ht.sameObservable hst.symm
      cases hs.symm.trans hs'.exec_eq
    · cases hs.symm.trans (ht.of_sameObservable hst.symm).exec_eq
    · rw [hs, ht]
      rfl

/-! ### Runs and their events -/

theorem history_append {es es' : List RunLabel} {s t : State} (h : runLabels es s = .next t) :
    history (es ++ es') s = history es s ++ history es' t := by
  induction es generalizing s with
  | nil => cases h; rfl
  | cons e es ih =>
    obtain ⟨u, hu, ht, hh⟩ := runLabels_cons_next h
    rw [hh, List.append_assoc, ← ih ht, List.cons_append, history, hu]

theorem history_singleton {e : RunLabel} {i : Instr} (h : e.decoded = .instr i) (s : State) :
    history [e] s = [⟨i, e.start s⟩] := by
  rw [history, eventOf_instr h]
  cases takeLabel e s <;> rfl

theorem wellFramed_append (f : Framing) (h k : List Event) :
    wellFramed f (h ++ k) = (wellFramed f h && wellFramed (h.foldl Framing.after f) k) := by
  induction h generalizing f with
  | nil => rfl
  | cons e h ih => simp only [List.cons_append, wellFramed, ih, List.foldl_cons, Bool.and_assoc]

@[simp] theorem startsByte_withInputs (i : Instr) (g : FreeInputs) (n : Nat) (s : State) :
    startsByte i (s.withInputs g n) = startsByte i s := by cases i <;> rfl

/-! ### TX_VALID and a byte's own stage -/

@[simp] theorem stage_txValid (v : Byte) (s : State) :
    (stage v s).txValid = (s.txValid || decide (s.bitCnt = 0#3 ∨ stageChoice s = .take)) := by
  rw [stage_eq]
  by_cases h : s.bitCnt = 0#3 ∨ stageChoice s = .take <;> simp [h]

@[simp] theorem selected_txValid (s : State) :
    (selected s).txValid = (s.txValid || decide (s.bitCnt = 0#3 ∨ stageChoice s = .take)) := stage_txValid _ _

/-- A stage in time leaves TX_VALID 1 (R111). -/
theorem Answer.txValid_of_stagesInTime {i : Instr} {s t : State} (h : Answer s i t) (hi : stagesInTime i s = true) :
    t.txValid = true := by
  simp only [stagesInTime, Bool.and_eq_true, decide_eq_true_eq] at hi
  obtain ⟨hi, h0⟩ := hi
  cases h with
  | injectSelects | dispatchSelects => simp [h0]
  | dispatchByte => simp [h0]
  | injectNotActive ha => simp [stages, edgeAfter, ha] at hi
  | injectDeselects ha hn | dispatchDeselects ha hn => simp [stages, edgeAfter, ha, hn] at hi
  | _ => simp [stages, edgeAfter] at hi

/-- Only the start of a byte, TEARDOWN and a CFG that succeeds clear TX_VALID (R108, R43). -/
theorem Answer.txValid_kept {i : Instr} {s t : State} (h : Answer s i t) (hi : i ≠ .teardown) (hc : cfgSucceeds i s = false)
    (hb : startsByte i s = false) (hs : s.txValid = true) : t.txValid = true := by
  cases h with
  | cfgConfigures ha hl hfits => simp [cfgSucceeds, ha, hl, hfits] at hc
  | teardown => exact absurd rfl hi
  | injectSelects | dispatchSelects => simp [hs]
  | injectDeselects | dispatchDeselects => simpa using hs
  | dispatchByte => simp [hs]
  | bitShifted he => simpa [startsByte, he, hs] using hb
  | byteShifted he h0 => simp [startsByte, he, h0] at hb
  | _ => exact hs

/-- What a run's framing says of its state: no byte was stale, and a byte's own stage leaves TX_VALID 1 (R146). -/
def FramedBy (f : Framing) (s : State) : Prop :=
  s.staleTx = false ∧ (f.staged = true → s.txValid = true)

theorem FramedBy.txValid_of_startsByte {f : Framing} {i : Instr} {s : State} (hs : FramedBy f s)
    (hf : framedEvent f ⟨i, s⟩ = true) (hb : startsByte i s = true) : s.txValid = true := by
  simp only [framedEvent, hb, Bool.and_eq_true, Bool.not_true, Bool.false_or] at hf
  obtain ⟨⟨-, hstaged⟩, -⟩ := hf
  exact hs.2 hstaged

/-- A framed event keeps it. -/
theorem FramedBy.of_answer {f : Framing} {i : Instr} {s t : State} (hs : FramedBy f s) (hf : framedEvent f ⟨i, s⟩ = true)
    (h : Answer s i t) : FramedBy (f.after ⟨i, s⟩) t := by
  by_cases hc : cfgSucceeds i s = true
  · obtain ⟨prd, cns, pin, len, rfl⟩ := h.eq_configured_of_cfgSucceeds hc
    refine ⟨rfl, fun hstaged => ?_⟩
    simp [Framing.after, hc, Framing.fresh] at hstaged
  rw [Bool.not_eq_true] at hc
  obtain ⟨hstale, -⟩ := h.sticky_flags hc
  refine ⟨?_, fun hstaged => ?_⟩
  · rw [hstale, hs.1, Bool.false_or, Bool.and_eq_false_imp]
    intro hb
    simp [hs.txValid_of_startsByte hf hb]
  · by_cases hi : i = .teardown
    · simp [Framing.after, hi, Framing.fresh] at hstaged
    simp only [Framing.after, hi, hc, Bool.false_eq_true, or_self, if_false, Bool.or_eq_true, Bool.and_eq_true,
      Bool.not_eq_true'] at hstaged
    rcases hstaged with hstage | ⟨hstaged, hb⟩
    · exact h.txValid_of_stagesInTime hstage
    · exact h.txValid_kept hi hc hb (hs.2 hstaged)

/-- So does one label of a run, an illegal command word among them. -/
theorem FramedBy.of_takeLabel {f : Framing} {e : RunLabel} {s t : State} (hs : FramedBy f s)
    (hw : wellFramed f (eventOf e s) = true) (h : takeLabel e s = .next t) :
    FramedBy ((eventOf e s).foldl Framing.after f) t := by
  rcases takeLabel_next h with ⟨i, hd, hx⟩ | ⟨hd, rfl⟩
  · rw [eventOf_instr hd] at hw ⊢
    have hinputs : FramedBy f (e.start s) := hs
    exact hinputs.of_answer (by simpa [wellFramed] using hw) (answer_of_exec hx)
  · simp only [eventOf, hd]
    exact hs

/-- So does every well-framed run, by induction on its labels. -/
theorem FramedBy.of_runLabels {f : Framing} {es : List RunLabel} {s t : State} (hs : FramedBy f s)
    (hw : wellFramed f (history es s) = true) (h : runLabels es s = .next t) :
    FramedBy ((history es s).foldl Framing.after f) t := by
  induction es generalizing f s with
  | nil => cases h; exact hs
  | cons e es ih =>
    obtain ⟨u, hu, ht, hh⟩ := runLabels_cons_next h
    rw [hh, wellFramed_append, Bool.and_eq_true] at hw
    obtain ⟨hfirst, hrest⟩ := hw
    rw [hh, List.foldl_append]
    exact ih (hs.of_takeLabel hfirst hu) hrest ht

/-- Settles O57: a clean state is framed by the fresh past, the run keeps it framed, and the next event starts a byte only once staged. -/
theorem wellFramedRunsSendNoStaleByte : Obligations.WellFramedRunsSendNoStaleByte := by
  unfold Obligations.WellFramedRunsSendNoStaleByte
  intro len pin prd cns ssIn es e i s t hclean hd h hw
  obtain ⟨-, -, -, -, -, hstale, -⟩ := hclean
  have hstart : FramedBy .fresh s := ⟨hstale, nofun⟩
  rw [history_append h, history_singleton hd, wellFramed_append, Bool.and_eq_true] at hw
  obtain ⟨hrun, hnext⟩ := hw
  have hend := hstart.of_runLabels hrun h
  simp only [wellFramed, Bool.and_true] at hnext
  refine ⟨hend.1, fun hb => ?_⟩
  have hinputs : FramedBy _ (e.start t) := hend
  exact hinputs.txValid_of_startsByte hnext ((startsByte_withInputs i _ _ t).trans hb)

/-! ### Runs that raise no hazard -/

/-- A byte abandoned by a falling line whose DeselEntry is still to come: no byte starts before that runs (R90). -/
def Abandoned (s : State) : Prop := s.selAtt = true ∧ s.ssIn = false ∧ s.ssPend = true

/-- The invariant behind R158: no hazard so far; a byte in progress is shifted while SELECTED with its predecessor handled; and between
bytes of a transaction, once the last one is handled, the next is staged (R146), unless the line has fallen. -/
structure State.InPace (s : State) : Prop where
  noHazard : s.NoHazard
  shifting : s.bitCnt ≠ 0#3 → s.edge = .selected ∧ s.tcPend = false
  ready : s.edge = .selected → s.bitCnt = 0#3 → s.tcPend = false → s.txValid = true ∨ Abandoned s

/-- The three conditions on one event. -/
def paced (i : Instr) (s : State) : Bool := startsSelected i s && handledInTime i s && edgesSeparated i s

theorem paced_iff {i : Instr} {s : State} :
    paced i s = true ↔ startsSelected i s = true ∧ handledInTime i s = true ∧ edgesSeparated i s = true := by
  simp [paced, and_assoc]

theorem State.CleanActive.inPace {len : Half} {pin : Byte} {prd cns ssIn : Bool} {s : State}
    (h : s.CleanActive len pin prd cns ssIn) : s.InPace := by
  obtain ⟨-, -, -, ⟨hedge, -⟩, ⟨h0, -⟩, hstale, hover, hwcol, hlost, -⟩ := h
  exact ⟨⟨hstale, hover, hwcol, hlost⟩, fun h => absurd h0 h, fun h => by simp [hedge] at h⟩

theorem Abandoned.not_shiftEnabled {s : State} (h : Abandoned s) : shiftEnabled s = false := by
  obtain ⟨hatt, hin, -⟩ := h
  simp [shiftEnabled_eq, hatt, hin]

theorem shiftEnabled_and_aligned_of_startsByte {i : Instr} {s : State} (h : startsByte i s = true) :
    shiftEnabled s = true ∧ s.bitCnt = 0#3 := by
  cases i with
  | sckBit _ | byte _ => simpa [startsByte] using h
  | _ => cases h

/-- In pace a byte starts while SELECTED, with its predecessor handled. -/
theorem selected_and_handled_of_startsByte {i : Instr} {s : State} (hp : paced i s = true) (hb : startsByte i s = true) :
    s.edge = .selected ∧ s.tcPend = false := by
  obtain ⟨hstart, hhandled, -⟩ := paced_iff.1 hp
  refine ⟨by simpa [startsSelected, hb] using (Bool.and_eq_true_iff.1 hstart).1, ?_⟩
  cases i with
  | sckBit _ | byte _ => simpa [handledInTime, hb] using hhandled
  | _ => cases hb

/-- In pace the byte that starts was staged (R146). -/
theorem State.InPace.txValid_of_startsByte {i : Instr} {s : State} (hs : s.InPace) (hp : paced i s = true)
    (hb : startsByte i s = true) : s.txValid = true := by
  obtain ⟨he, h0⟩ := shiftEnabled_and_aligned_of_startsByte hb
  obtain ⟨hedge, hhandled⟩ := selected_and_handled_of_startsByte hp hb
  exact (hs.ready hedge h0 hhandled).resolve_right fun h => by simp [h.not_shiftEnabled] at he

/-- In pace every bit, the first or a later one, is shifted while SELECTED with the last byte handled. -/
theorem State.InPace.selected_and_handled_of_bit {b : Bool} {s : State} (hs : s.InPace) (hp : paced (.sckBit b) s = true)
    (he : shiftEnabled s = true) : s.edge = .selected ∧ s.tcPend = false := by
  by_cases h0 : s.bitCnt = 0#3
  · exact selected_and_handled_of_startsByte hp (by simp [startsByte, he, h0])
  · exact hs.shifting h0

/-- In pace a byte that completes finds its predecessor handled (R147). -/
theorem State.InPace.handled_of_completesByte {i : Instr} {s : State} (hs : s.InPace) (hp : paced i s = true)
    (hc : completesByte i s = true) : s.tcPend = false := by
  cases i with
  | sckBit _ => exact (hs.selected_and_handled_of_bit hp (Bool.and_eq_true_iff.1 hc).1).2
  | byte _ => exact (selected_and_handled_of_startsByte hp hc).2
  | _ => cases hc

theorem nextEdge_of_edgeAfter {i : Instr} {s : State} {e : Edge} (h : edgeAfter i s = some e) :
    ∃ lvl, nextEdge s.edge lvl = e := by
  cases i with
  | injectEdge lvl =>
    simp only [edgeAfter, Option.ite_none_right_eq_some, Option.some.injEq] at h
    exact ⟨lvl, h.2⟩
  | dispatchEdge =>
    simp only [edgeAfter, Option.ite_none_right_eq_some, Option.some.injEq] at h
    exact ⟨s.ssIn, h.2⟩
  | _ => cases h

/-- In pace a SelEntry runs between bytes: a byte in progress keeps EDGE SELECTED. -/
theorem State.InPace.aligned_of_selEntry {lvl : Bool} {s : State} (hs : s.InPace) (hn : nextEdge s.edge lvl = .selected) :
    s.bitCnt = 0#3 := by
  by_contra h0
  simp [(hs.shifting h0).1, nextEdge] at hn

/-- In pace a DeselEntry runs between bytes: the last clause of WELL_FRAMED (log 16). -/
theorem aligned_of_deselEntry {i : Instr} {s : State} (hp : paced i s = true) (hi : edgeAfter i s = some .deselected) :
    s.bitCnt = 0#3 := by
  obtain ⟨hstart, -⟩ := paced_iff.1 hp
  simpa [hi] using (Bool.and_eq_true_iff.1 hstart).2

/-- In pace the byte handler runs between bytes (R110). -/
theorem State.InPace.aligned_of_byteEnabled {s : State} (hs : s.InPace) (he : byteEnabled s = true) : s.bitCnt = 0#3 := by
  by_contra h0
  simp [byteEnabled, (hs.shifting h0).2] at he

/-- In pace every stage is in time. -/
theorem State.InPace.aligned_of_stages {i : Instr} {s : State} (hs : s.InPace) (hi : stages i s = true) : s.bitCnt = 0#3 := by
  simp only [stages, Bool.or_eq_true, Bool.and_eq_true, decide_eq_true_eq] at hi
  rcases hi with hsel | ⟨-, he⟩
  · obtain ⟨lvl, hn⟩ := nextEdge_of_edgeAfter hsel
    exact hs.aligned_of_selEntry hn
  · exact hs.aligned_of_byteEnabled he

/-- In pace no label raises a hazard flag: none of their causes is met. -/
theorem State.InPace.noHazard_of_answer {i : Instr} {s t : State} (hs : s.InPace) (hp : paced i s = true) (h : Answer s i t) :
    t.NoHazard := by
  by_cases hc : cfgSucceeds i s = true
  · obtain ⟨prd, cns, pin, len, rfl⟩ := h.eq_configured_of_cfgSucceeds hc
    exact ⟨rfl, rfl, rfl, rfl⟩
  obtain ⟨hstale, hover, hwcol, hlost⟩ := h.sticky_flags (Bool.not_eq_true _ ▸ hc)
  obtain ⟨hstale₀, hover₀, hwcol₀, hlost₀⟩ := hs.noHazard
  rw [hstale₀, Bool.false_or] at hstale
  rw [hover₀, Bool.false_or] at hover
  rw [hwcol₀, Bool.false_or, Bool.and_assoc] at hwcol
  rw [hlost₀, Bool.false_or] at hlost
  refine ⟨?stale, ?overrun, ?wcol, ?lost⟩
  case stale =>
    rw [hstale, Bool.and_eq_false_imp]
    intro hb
    simp [hs.txValid_of_startsByte hp hb]
  case overrun =>
    rw [hover, Bool.and_eq_false_imp]
    exact hs.handled_of_completesByte hp
  case wcol =>
    rw [hwcol, Bool.and_eq_false_imp]
    intro hi
    simp [hs.aligned_of_stages hi]
  case lost =>
    obtain ⟨-, -, hsep⟩ := paced_iff.1 hp
    rw [hlost]
    simpa only [edgesSeparated, Bool.not_eq_true'] using hsep

/-- In pace a byte that is in progress after a label started while SELECTED, with its predecessor handled. -/
theorem State.InPace.shifting_of_answer {i : Instr} {s t : State} (hs : s.InPace) (hp : paced i s = true) (h : Answer s i t)
    (h0 : t.bitCnt ≠ 0#3) : t.edge = .selected ∧ t.tcPend = false := by
  cases h with
  | cfgAlreadyActive | cfgZeroLength | cfgNoResource | injectNotActive | bitNotDriven | byteNotDriven | rd =>
    exact hs.shifting h0
  | cfgConfigures | teardown => exact absurd rfl h0
  | injectSelects _ hn | dispatchSelects _ hn => exact absurd (hs.aligned_of_selEntry hn) (by simpa using h0)
  | injectDeselects ha hn | dispatchDeselects ha hn =>
    exact absurd (aligned_of_deselEntry hp (by simp [edgeAfter, ha, hn])) (by simpa using h0)
  | ssLevel => exact hs.shifting fun h => h0 (by simp [h])
  | bitShifted he =>
    obtain ⟨hedge, hhandled⟩ := hs.selected_and_handled_of_bit hp he
    have h7 : s.bitCnt ≠ 7#3 := fun h7 => h0 (by simp [h7])
    exact ⟨hedge, by simp [hhandled, h7]⟩
  | byteShifted _ haligned => exact absurd haligned h0
  | dispatchByte he => exact absurd (hs.aligned_of_byteEnabled he) (by simpa using h0)

/-- A change of the line between bytes, in pace: a fall leaves the transaction to DeselEntry, and a rise comes after it has run (R90). -/
theorem State.InPace.ready_of_ssLevel {v : Bool} {s t : State} (hs : s.InPace) (hp : paced (.ssLevel v) s = true)
    (h : Answer s (.ssLevel v) t) (hedge : t.edge = .selected) (h0 : t.bitCnt = 0#3) (hhandled : t.tcPend = false) :
    t.txValid = true ∨ Abandoned t := by
  obtain ⟨-, -, hsep⟩ := paced_iff.1 hp
  cases h with
  | ssLevel =>
    by_cases hchange : v ≠ s.ssIn ∧ s.selAtt = true
    · obtain ⟨hv, hatt⟩ := hchange
      have hpend : s.ssPend = false := by simpa [edgesSeparated, changesSelect, hv, hatt] using hsep
      cases v with
      | false => exact .inr ⟨hatt, rfl, by simp [hv, hatt]⟩
      | true =>
        refine .inl ((hs.ready hedge (by simpa using h0) hhandled).resolve_right ?_)
        simp [Abandoned, hpend]
    · have haligned : s.bitCnt = 0#3 := (if_neg fun h => hchange h.2).symm.trans h0
      refine (hs.ready hedge haligned hhandled).imp id fun ⟨hatt, hin, hpend⟩ => ⟨hatt, ?_, by simp [hpend]⟩
      have hv : v = s.ssIn := by_contra fun hv => hchange ⟨hv, hatt⟩
      exact hv.trans hin

/-- In pace the next byte of a transaction is staged once the last one is handled. -/
theorem State.InPace.ready_of_answer {i : Instr} {s t : State} (hs : s.InPace) (hp : paced i s = true) (h : Answer s i t)
    (hedge : t.edge = .selected) (h0 : t.bitCnt = 0#3) (hhandled : t.tcPend = false) : t.txValid = true ∨ Abandoned t := by
  cases h with
  | cfgAlreadyActive | cfgZeroLength | cfgNoResource | injectNotActive | bitNotDriven | byteNotDriven | rd =>
    exact hs.ready hedge h0 hhandled
  | cfgConfigures | teardown => cases hedge
  | injectSelects _ hn | dispatchSelects _ hn => exact .inl (by simp [hs.aligned_of_selEntry hn])
  | injectDeselects | dispatchDeselects => simp at hedge
  | ssLevel => exact hs.ready_of_ssLevel hp .ssLevel hedge h0 hhandled
  | bitShifted =>
    have hwrap : s.bitCnt + 1#3 = 0#3 := h0
    have h7 : s.bitCnt = 7#3 := by bv_omega
    simp [h7] at hhandled
  | byteShifted => cases hhandled
  | dispatchByte he => exact .inl (by simp [hs.aligned_of_byteEnabled he])

/-- Settles O55, by induction on the run: the invariant holds right after a CFG, and every label in pace keeps it. -/
theorem runsThatStartBytesWhileSelectedRaiseNoHazard : Obligations.RunsThatStartBytesWhileSelectedRaiseNoHazard := by
  unfold Obligations.RunsThatStartBytesWhileSelectedRaiseNoHazard
  intro len pin prd cns ssIn es s t hclean hstart hhandled hsep h
  have hpaced : everyEvent paced (history es s) = true := by
    rw [everyEvent, List.all_eq_true] at *
    exact fun e he => paced_iff.2 ⟨hstart e he, hhandled e he, hsep e he⟩
  exact (runLabels_keeps (Inv := State.InPace) (fun _ _ _ h => ⟨h.noHazard, h.shifting, h.ready⟩)
    (fun _ h => ⟨h.noHazard, h.shifting, h.ready⟩)
    (fun _ _ _ hs hp h =>
      have ha := answer_of_exec h
      ⟨hs.noHazard_of_answer hp ha, hs.shifting_of_answer hp ha, hs.ready_of_answer hp ha⟩)
    hclean.inPace hpaced h).noHazard

/-- Settles O54: of WELL_FRAMED only the first condition and the last clause are needed. -/
theorem cleanRunsRaiseNoHazard : Obligations.CleanRunsRaiseNoHazard := by
  unfold Obligations.CleanRunsRaiseNoHazard
  intro len pin prd cns ssIn es s t hclean hframed hhandled hsep h
  exact runsThatStartBytesWhileSelectedRaiseNoHazard len pin prd cns ssIn es s t hclean (wellFramed_startsSelected hframed)
    hhandled hsep h

/-! ### The last byte pending at a deselect -/

/-- Settles O34: the handler stores before DeselEntry takes its snapshot, or into the cells DeselEntry has zeroed. -/
theorem pendingLastByteDependsOnTheDispatchOrder : Obligations.PendingLastByteDependsOnTheDispatchOrder := by
  unfold Obligations.PendingLastByteDependsOnTheDispatchOrder
  intro s hlegal hedgeEn hbyteEn hedge hcns
  obtain ⟨⟨-, -, hr, hsc⟩, -⟩ := (State.legal_iff_of_active (active_of_byteEnabled hbyteEn)).1 hlegal
  refine ⟨⟨_, (Answer.dispatchByte hbyteEn hr hsc).exec_eq, fun g n =>
      ⟨_, (Answer.dispatchDeselects ?edgeEnabled (nextEdge_deselected _ ?selected)).exec_eq, ?withByte, ?zeroed⟩⟩,
    ⟨_, (Answer.dispatchDeselects hedgeEn (nextEdge_deselected _ hedge)).exec_eq, fun g n =>
      ⟨_, (Answer.dispatchByte ?byteEnabled ?rcLive ?scLive).exec_eq, ?withoutByte, ?stored⟩⟩⟩
  case edgeEnabled => simpa [edgeEnabled] using hedgeEn
  case selected => simpa using hedge
  case withByte => simp [hcns, liveBytes]
  case zeroed => simp +contextual [unlistedByte]
  case byteEnabled => simpa [byteEnabled] using hbyteEn
  case rcLive => simpa [BitVec.lt_def] using hr
  case scLive => simpa [BitVec.lt_def] using hsc
  case withoutByte => simp [hcns, liveBytes]
  case stored => simp +contextual [unlistedByte]

/-! ### CLEAN_ACTIVE -/

/-- A configured core is CLEAN_ACTIVE for the operands of its CFG (R43, R80). -/
theorem configured_cleanActive {s : State} {len : Half} (prd cns : Bool) (pin : Byte) (hl : len ≠ 0#16)
    (hb : len ≤ s.par.bufMax) : (configured prd cns pin len s).CleanActive len pin prd cns s.ssIn := by
  refine ⟨⟨by bv_omega, hb⟩, ⟨rfl, rfl, fun a ha => ?_, rfl, rfl⟩, ⟨rfl, rfl, rfl, rfl⟩, ⟨rfl, rfl, rfl, rfl⟩,
    ⟨rfl, rfl, rfl, rfl⟩, rfl, rfl, rfl, rfl, rfl⟩
  simp [configured, ha, unlistedByte]

/-- Zeroing cells that read 0x00 leaves a canonical buffer as it is. -/
theorem Memory.zero_eq_self {m : Memory} {n : Nat} (hm : m.wf) (h : ∀ a, a < n → m.read a = unlistedByte) : m.zero n = m := by
  refine Memory.eq_of_read_eq (Memory.zero_wf hm n) hm fun a => ?_
  rw [Memory.read_zero]
  split
  next ha => exact (h a ha).symm
  next => rfl

/-- A CLEAN_ACTIVE state with a canonical buffer is what its CFG makes of it. -/
theorem State.CleanActive.configured_eq {len : Half} {pin : Byte} {prd cns ssIn : Bool} {t : State} (hwf : t.buf.wf)
    (h : t.CleanActive len pin prd cns ssIn) : configured prd cns pin len { t with active := false } = t := by
  obtain ⟨-, ⟨hactive, hlen, hbuf, hcursors⟩, hconfig, hline, hshift, hflags⟩ := h
  have hzero := Memory.zero_eq_self hwf hbuf
  cases t
  simp_all [configured, errCode]

/-- Settles O56: a configured core is clean, and a clean one is what its CFG makes of it once ACTIVE is cleared. -/
theorem cleanActiveIsRightAfterCfg : Obligations.CleanActiveIsRightAfterCfg := by
  unfold Obligations.CleanActiveIsRightAfterCfg
  refine ⟨fun prd cns pin len s t hc h => ?clean, fun prd cns ssIn pin len t hwf h => ?configures⟩
  case clean =>
    simp only [cfgSucceeds, Bool.and_eq_true, Bool.not_eq_true', decide_eq_true_eq] at hc
    obtain ⟨⟨ha, hl⟩, hb⟩ := hc
    cases (execCfg_configures prd cns pin ha hl hb).symm.trans h
    exact configured_cleanActive prd cns (pinField pin) hl hb
  case configures =>
    have heq := h.configured_eq hwf
    obtain ⟨⟨hpos, hb⟩, -⟩ := h
    have hl : len ≠ 0#16 := by bv_omega
    refine ⟨{ t with active := false }, by simp [cfgSucceeds, hl, hb], ?_⟩
    exact (execCfg_configures (s := { t with active := false }) prd cns pin rfl hl hb).trans (congrArg _ heq)

/-! ### Reset -/

/-- Settles O42: each value is the field's in `State.powerOn`. -/
theorem powerOnResetValues : Obligations.PowerOnResetValues := by
  unfold Obligations.PowerOnResetValues
  intro par ssIn sr buf
  simp only [State.powerOn, Config.pinSentinel, and_self]

theorem powerOn_legal (par : Params) (ssIn : Bool) (sr : Byte) (buf : Memory) : (State.powerOn par ssIn sr buf).Legal :=
  (State.legal_iff_of_inactive rfl).2 ⟨rfl, rfl, rfl, rfl, rfl, rfl, rfl, rfl, rfl, rfl⟩

/-- Settles O43: a core that is not active enables no dispatch and shifts no bit. -/
theorem resetIsLegalAndIdle : Obligations.ResetIsLegalAndIdle := by
  unfold Obligations.ResetIsLegalAndIdle
  refine ⟨fun par ssIn sr buf => ⟨powerOn_legal par ssIn sr buf, rfl, rfl, fun b => (Answer.bitNotDriven rfl).exec_eq⟩,
    powerOn_legal _ _ _ _, ⟨Memory.wf_nil, nofun⟩, rfl, rfl, rfl⟩

end Sys2Proof.Machine
end
